-- ==== Sys2Proof/Word.lean ====
section
/-! DEFINITION. The word types of the block: bytes of data memory, 32-bit register values, 16-bit accumulators. -/

namespace Sys2Proof

/-- A byte of data memory (20_memory.md R50). -/
abbrev Byte := BitVec 8

/-- A register value: every register is REG_W = 32 bits wide (10_state.md R20). -/
abbrev Word := BitVec 32

/-- A byte address on the memory port: ADDR_W = 32 bits (00_scope.md R7, D4). -/
abbrev Addr := BitVec 32

/-- A lane's accumulator: unsigned 16 bits (40_pixelblock_transform.md R103). -/
abbrev Acc := BitVec 16

end Sys2Proof
end

