-- ==== Sys2Proof/Syntax.lean ====
section
/-! DEFINITION. The block's commands: one constructor per row of spec/opcode_table.json. -/

namespace Sys2Proof

/-- The three commands of 30_encoding.md R80. No command has an immediate or a register-number field (R82),
so no constructor has an argument. -/
inductive Instr where
  /-- PIXEL: transform one pixel with the scalar unit (R110). -/
  | pixel
  /-- BLOCK: transform one block of B pixels (R111). -/
  | block
  /-- ROW: process one scanline of WIDTH pixels (R140). -/
  | row
deriving DecidableEq, Repr

end Sys2Proof
end

