-- ==== Sys2Proof/WellFormed.lean ====
section
/-! DEFINITION. The fields of a CMD32 word, and when they are a command's. The commands have no operands, so what
can be ill-formed is the word: a reserved OP or a reserved bit set (30_encoding.md R81, R83, R88). -/

namespace Sys2Proof

/-- The two fields of a CMD32 word (R81): OP = bits 3:0, RSV = bits 31:4. -/
structure CmdFields where
  op  : BitVec 4
  rsv : BitVec 28
deriving DecidableEq, Repr

/-- The opcode is one of the three defined ones (R81): 0x1, 0x2 or 0x3. -/
def CmdFields.opDefined (f : CmdFields) : Bool :=
  f.op == 0x1 || f.op == 0x2 || f.op == 0x3

/-- The reserved field is zero (R83). -/
def CmdFields.rsvClear (f : CmdFields) : Bool :=
  f.rsv == 0

/-- A CMD32 word is a command's exactly when both checks pass (R88). -/
def CmdFields.wellFormed (f : CmdFields) : Bool :=
  f.opDefined && f.rsvClear

/-- The fields the spec gives each command (the table of R81). -/
def Instr.fields : Instr → CmdFields
  | .pixel => ⟨0x1, 0⟩
  | .block => ⟨0x2, 0⟩
  | .row   => ⟨0x3, 0⟩

/-- An instruction is well-formed when its fields are. -/
def Instr.wellFormed (i : Instr) : Bool :=
  i.fields.wellFormed

end Sys2Proof
end

