-- ==== Sys2Proof/Decode.lean ====
section
/-! DEFINITION. The decoder of CMD32 words, total on all 2^32 values and rejecting by name, and the encoder. A command
is the 32-bit value of ONE register write (20_memory.md R53, R55): it has no bytes in memory and no byte order. -/

namespace Sys2Proof

/-- Why a word is no command (30_encoding.md R88: both classes are illegal). -/
inductive DecodeError where
  /-- CMD[31:4] is not zero: illegal whatever the OP (R83). -/
  | reservedBits (rsv : BitVec 28)
  /-- OP is 0x0 or 0x4 to 0xF (R81). -/
  | reservedOp (op : BitVec 4)
deriving DecidableEq, Repr

/-- The fields of a word (R81). -/
def splitFields (v : Word) : CmdFields :=
  { op := v.extractLsb' 0 4, rsv := v.extractLsb' 4 28 }

/-- The word with the given fields: RSV in the upper bits (R81). -/
def joinFields (f : CmdFields) : Word :=
  f.rsv ++ f.op

/-- The command with the given opcode, when RSV is zero (R81, R85). -/
def decodeOp (op : BitVec 4) : Except DecodeError Instr :=
  if op = 0x1 then .ok .pixel
  else if op = 0x2 then .ok .block
  else if op = 0x3 then .ok .row
  else .error (.reservedOp op)

/-- The decoder of R85. -/
def decode (v : Word) : Except DecodeError Instr :=
  if (splitFields v).rsv = 0 then decodeOp (splitFields v).op
  else .error (.reservedBits (splitFields v).rsv)

/-- The word of a command, from the table of R81. -/
def encode (i : Instr) : Word :=
  joinFields i.fields

/-- What the decoder reads from an instruction whose bits are `w`, numbered as spec/opcode_table.json numbers them: a
CMD32 word is one 32-bit register value, so `w` is that value. Bits beyond the 32 make it no command of the table. -/
def decodeTableWord (nbits w : Nat) : Option Instr :=
  if w % 2 ^ nbits < 2 ^ 32 then
    match decode (BitVec.ofNat 32 (w % 2 ^ nbits)) with
    | .ok i => some i
    | .error _ => none
  else none

end Sys2Proof
end

