-- ==== Sys2Proof/Config.lean ====
section
/-! DEFINITION. What the platform fixes (the OPEN parameters of 00_scope.md R7) and the model's free values. The
parameters are plain data, so that a run with given parameters can be evaluated; the machine after reset holds the
free constant `Config.platform`, so that nothing can be proved from a value of theirs. -/

namespace Sys2Proof

/-- Whether a range of data memory is ordinary memory or a location whose accesses have side effects
(20_memory.md R59). -/
inductive RegionKind where
  | ordinary
  | sideEffecting
deriving DecidableEq, Repr, Inhabited

/-- A range of byte addresses at which the memory port completes transactions. -/
structure Region where
  base : Nat
  size : Nat
  kind : RegionKind
deriving DecidableEq, Repr, Inhabited

/-- The OPEN parameters of R7. `wideBsz` is SUPPORTED_BSZ[4:1]; bit 0 is hardwired to 1 (10_state.md R21), so it is no
field. `regions` lists where MEM_ADMITS holds: every set of addresses of the finite address space is such a list. -/
structure Platform where
  wideBsz : BitVec 4
  regBase : Nat
  regions : List Region
deriving DecidableEq, Repr, Inhabited

/-- The platform of the machine: OPEN (R7), so nothing constrains it. DESIGN CHOICE: log 2. -/
opaque Config.platform : Platform

/-- The outcome of the model's k-th free draw: which of several values the spec allows. Nothing constrains it. Log 5. -/
opaque Config.freePick : Nat → Nat

end Sys2Proof
end

