-- ==== Sys2Proof/Machine/State.lean ====
section
/-! DEFINITION. The machine's state as plain data: everything the spec gives the block, the engine's hidden state, the
host's events still to come, and the model's own marks. INVENTORY.md lists each piece with its rule. -/

namespace Sys2Proof.Machine

/-- Data memory (20_memory.md R50): the listed bytes, addresses strictly rising, none of them equal to what an unlisted
address reads as (`memoryWf`). -/
abbrev Memory := List Host.Cell

/-- The errors of 60_exceptions.md R170, by name. -/
inductive ErrorKind where
  | illegalCommand
  | zeroWidth
  | range
  | overlap
  | busFault
deriving DecidableEq, Repr

/-- The command latched at acceptance (10_state.md R31): op, S, D, n, and B by its code (30_encoding.md R84). -/
structure Latched where
  op    : Instr
  src   : Word
  dst   : Word
  count : Nat
  code  : Fin 5
deriving DecidableEq, Repr

/-- The engine while BUSY (R31). `before` is the model's M0, memory at acceptance (20_memory.md R62). `done` is
done_set, each index with the gray byte the engine wrote for it. `hostWrites` are the host's racing writes to the
command's extents, oldest first (R64). -/
structure Running where
  cmd        : Latched
  before     : Memory
  done       : List (Nat × Byte)
  hostWrites : List Host.Cell
deriving DecidableEq, Repr

/-- A command that has ended and whose results the host may not use yet: it has not read STATUS with BUSY = 0 and
DONE = 1 (20_memory.md R63 item 2, 70_reset_and_hazards.md R207). `released`: the host has read STATUS with BUSY = 0, so
that its accesses to the extents are no races any more (R206). `rewritten`: the destination bytes the host has written
since then. Log 9. -/
structure Finished where
  cmd       : Latched
  before    : Memory
  released  : Bool
  rewritten : List Nat
deriving DecidableEq, Repr

/-- Where a host register access goes: an offset in the window (the encoding of 30_encoding.md R89), or a host address,
resolved against REG_BASE (10_state.md R20). -/
inductive HostAddr where
  | offset (o : Nat)
  | absolute (a : Nat)
deriving DecidableEq, Repr

/-- How many bytes a host register access takes (10_state.md R35 admits `word` only). -/
inductive AccessWidth where
  | byte
  | half
  | word
  | double
deriving DecidableEq, Repr

/-- The number of bytes of an access. -/
def AccessWidth.bytes : AccessWidth → Nat
  | .byte => 1
  | .half => 2
  | .word => 4
  | .double => 8

/-- What happens at the block, one entry per event of the serialised order of 60_exceptions.md R183. -/
inductive Event where
  /-- A host register write (R89 `wr`). -/
  | regWrite (at_ : HostAddr) (width : AccessWidth) (value : Word)
  /-- A host register read (R89 `rd`). -/
  | regRead (at_ : HostAddr) (width : AccessWidth)
  /-- The host's own write of one byte of data memory (20_memory.md R50). -/
  | memWrite (addr : Addr) (value : Byte)
  /-- The host's own read of one byte of data memory (R50). -/
  | memRead (addr : Addr)
  /-- The host polls STATUS until BUSY = 0 (R90 `wait`). -/
  | wait
  /-- The host goes on only if the last STATUS value it read has DONE = 1 and ERR = 0 (70_reset_and_hazards.md R211
  `require`). -/
  | requireDone
  /-- Reset is applied (70_reset_and_hazards.md R200). -/
  | reset
  /-- The engine takes a step; `choice` says which of its pending work it does (20_memory.md R61). -/
  | engine (choice : Nat)
deriving DecidableEq, Repr

/-- A value a host read returned. -/
inductive Readout where
  | register (offset : Nat) (value : Word)
  | memory (addr : Addr) (value : Byte)
deriving DecidableEq, Repr

/-- The machine. -/
structure State where
  /-- The OPEN parameters (00_scope.md R7); CAP reads `wideBsz` (10_state.md R21). Nothing writes it. -/
  platform   : Platform
  /-- CTRL.BSZ (R22, R23), a legal code. -/
  bsz        : Fin 5
  /-- SRC (R24). -/
  src        : Word
  /-- DST (R25). -/
  dst        : Word
  /-- WIDTH (R26). -/
  width      : Word
  /-- STATUS.DONE (R28). -/
  doneFlag   : Bool
  /-- STATUS.ERR and STATUS.ERRCODE (R28): `none` is ERR = 0 and ERRCODE = 0. -/
  error      : Option ErrorKind
  /-- STATUS.DROP (R28). -/
  drop       : Bool
  /-- `fsm` and the hidden state of R31: `none` is IDLE and BUSY = 0, `some` is BUSY = 1. -/
  engine     : Option Running
  /-- Data memory (20_memory.md R50). -/
  mem        : Memory
  /-- The events still to come, in their serialised order (60_exceptions.md R183). -/
  events     : List Event
  /-- The values host reads returned, newest first. -/
  readouts   : List Readout
  /-- Commands ended whose results the host may not use yet (70_reset_and_hazards.md R206, R207). -/
  unobserved : List Finished
  /-- The run made an access of 20_memory.md R64 or R206: it is racy. -/
  racy       : Bool
  /-- A reset came while BUSY = 1 (R202). -/
  resetCut   : Bool
  /-- A `require` of the host program failed (R211): it has stopped before its last line. -/
  stopped    : Bool
  /-- How many free draws the model has made. -/
  draws      : Nat
deriving DecidableEq, Repr

/-- What stops the machine itself. The errors of the block are no stops: they are STATUS updates (R178). -/
inductive Fault where
  /-- Raised by the engine when its latched command has a byte beyond the address space of 2^32 bytes (20_memory.md
  R50, R56). Safe: acceptance refuses such a command (R174), so no run reaches it. -/
  | outsideAddressSpace
deriving DecidableEq, Repr

/-- What the model gives no meaning. -/
inductive Refusal where
  /-- Raised by an arm of `exec` whose instruction has no meaning yet; none is left. Safe. -/
  | notModelled (mnemonic : String)
  /-- Raised by a host register access that is not an aligned 32-bit one: the spec says a model refuses it
  (10_state.md R35, U11). Safe. -/
  | registerAccessForm
  /-- Raised by a command with an extent on a location with side effects, which the spec says a model refuses
  (20_memory.md R59, U17). Safe. -/
  | sideEffectingExtent
  /-- Raised by a host access of its own to a location with side effects, whose effect no rule gives (R59). Safe. -/
  | sideEffectingAccess
deriving DecidableEq, Repr

/-- The machine after reset (10_state.md R36): all registers 0, the engine IDLE. The platform is free; memory lists
nothing (log 4). -/
def State.reset : State where
  platform   := Config.platform
  bsz        := 0
  src        := 0
  dst        := 0
  width      := 0
  doneFlag   := false
  error      := none
  drop       := false
  engine     := none
  mem        := []
  events     := []
  readouts   := []
  unobserved := []
  racy       := false
  resetCut   := false
  stopped    := false
  draws      := 0

end Sys2Proof.Machine
end

