-- ==== Sys2Proof/Machine/Ops.lean ====
section
/-! DEFINITION. The named operations over memory, the platform and the error state that the meanings share: the memory
primitives of 00_scope.md R10, where memory is admitted and ordinary, free draws, and recording and acknowledging an
error (60_exceptions.md R176 to R180), which is all the exception entry and return the block has (R178, R179). -/

namespace Sys2Proof.Machine

/-! ### Memory -/

/-- What a byte that nothing has written reads as. The spec leaves memory at power-on open (10_state.md R36).
DESIGN CHOICE, unsafe: log 4. -/
def unwritten : Byte := 0x00

/-- The byte at an address. -/
def readByte : Memory → Nat → Byte
  | [], _ => unwritten
  | (b, v) :: m, a => if a = b then v else readByte m a

/-- Writes one byte, keeping the canonical form: writing what an unlisted address reads as removes the entry. -/
def writeByte : Memory → Nat → Byte → Memory
  | [], a, v => if v = unwritten then [] else [(a, v)]
  | (b, w) :: m, a, v =>
    if a < b then (if v = unwritten then (b, w) :: m else (a, v) :: (b, w) :: m)
    else if a = b then (if v = unwritten then m else (a, v) :: m)
    else (b, w) :: writeByte m a v

/-- MemRead(addr, n) of R10: element 0 is the byte at `a`. -/
def readBytes (m : Memory) (a n : Nat) : List Byte :=
  (List.range n).map fun j => readByte m (a + j)

/-- MemWrite(addr, n, v) of R10: element k goes to address `a + k`. -/
def writeBytes (m : Memory) (a : Nat) : List Byte → Memory
  | [] => m
  | v :: vs => writeBytes (writeByte m a v) (a + 1) vs

/-- The canonical form above a bound: addresses rising from at least `lo`, below 2^32, no entry equal to `unwritten`. -/
def memoryWfFrom : Nat → Memory → Bool
  | _, [] => true
  | lo, (a, v) :: m => decide (lo ≤ a) && decide (a < 2 ^ 32) && (v != unwritten) && memoryWfFrom (a + 1) m

/-- Memory is in its canonical form. -/
def memoryWf (m : Memory) : Bool := memoryWfFrom 0 m

/-! ### The platform -/

/-- The byte address lies in the region. -/
def inRegion (r : Region) (a : Nat) : Bool :=
  decide (r.base ≤ a) && decide (a < r.base + r.size)

/-- MEM_ADMITS (R7): the memory port completes a transaction to this byte (20_memory.md R60). -/
def admits (p : Platform) (a : Nat) : Bool :=
  p.regions.any fun r => inRegion r a

/-- The byte is a location with side effects (20_memory.md R59). -/
def sideEffecting (p : Platform) (a : Nat) : Bool :=
  p.regions.any fun r => r.kind == .sideEffecting && inRegion r a

/-- Some byte of `[lo, lo + len)` is a location with side effects (R59). -/
def touchesSideEffecting (p : Platform) (lo len : Nat) : Bool :=
  p.regions.any fun r =>
    r.kind == .sideEffecting && decide (max lo r.base < min (lo + len) (r.base + r.size))

/-- SUPPORTED_BSZ, with bit 0 hardwired to 1 (10_state.md R21). -/
def supportedBsz (p : Platform) : BitVec 5 :=
  p.wideBsz ++ 1#1

/-- SUPPORTED_BSZ[c] = 1. -/
def supports (p : Platform) (c : Fin 5) : Bool :=
  (supportedBsz p).getLsbD c.val

/-- The offset in the register window an access goes to, if it is addressed to the window of 0x100 bytes at REG_BASE
(10_state.md R20). It looks at the first byte of the access. -/
def windowOffset (p : Platform) : HostAddr → Option Nat
  | .offset o => if o < 0x100 then some o else none
  | .absolute a => if p.regBase ≤ a ∧ a < p.regBase + 0x100 then some (a - p.regBase) else none

/-- The access takes some byte of the window (R20). -/
def reachesWindow (p : Platform) (at_ : HostAddr) (width : AccessWidth) : Bool :=
  match at_ with
  | .offset o => decide (o < 0x100)
  | .absolute a => decide (p.regBase < a + width.bytes) && decide (a < p.regBase + 0x100)

/-! ### Free draws -/

/-- The k-th free draw from the values `x :: vs`: any of them (93_implementation_defined.md U15, U16). Where there is
only one value there is nothing to draw. Log 5. -/
def pick (k : Nat) (x : Byte) : List Byte → Byte
  | [] => x
  | v :: vs => (x :: v :: vs).getD (Config.freePick k % (vs.length + 2)) x

/-- `n` draws have been made. -/
def State.drew (n : Nat) (s : State) : State :=
  { s with draws := s.draws + n }

/-! ### Errors: recording, dropping, acknowledging -/

/-- BUSY (10_state.md R28), always equal to `fsm` (R31). -/
def State.busy (s : State) : Bool := s.engine.isSome

/-- Recording an error: `DONE <- 0`, `ERR <- 1`, `ERRCODE <- code`, and nothing else (60_exceptions.md R170, R177,
R178). This is the one exception entry of the block. -/
def State.raise (e : ErrorKind) (s : State) : State :=
  { s with doneFlag := false, error := some e }

/-- Acknowledging an error: `ERR <- 0` and `ERRCODE <- 0` (R179). This is the one return from an exception. -/
def State.acknowledge (s : State) : State :=
  { s with error := none }

/-- A host write that is dropped: `DROP <- 1`, and nothing else (10_state.md R33, 60_exceptions.md R180). -/
def State.dropWrite (s : State) : State :=
  { s with drop := true }

end Sys2Proof.Machine
end

