-- ==== Sys2Proof/Machine/Operands.lean ====
section
/-! DEFINITION. The implicit operands of the commands (30_encoding.md R82): block sizes, the pixel count, the two extents
and the tests on them. -/

namespace Sys2Proof.Machine

/-- Bsize (30_encoding.md R84): B = 1, 4, 8, 16, 32 for the codes 0 to 4. -/
def blockSize (c : Fin 5) : Nat :=
  if c = 0 then 1 else 2 ^ (c.val + 1)

/-- The pixel count n of a command (R82), from the registers. -/
def pixelCount (i : Instr) (s : State) : Nat :=
  match i with
  | .pixel => 1
  | .block => blockSize s.bsz
  | .row => s.width.toNat

/-- Range (60_exceptions.md R174): an extent of n pixels at S or D passes 2^32, computed exactly. -/
def outOfRange (src dst n : Nat) : Bool :=
  decide (src + 4 * n > 2 ^ 32) || decide (dst + 4 * n > 2 ^ 32)

/-- Overlap (R173): the two extents share a byte, computed exactly. -/
def overlaps (src dst n : Nat) : Bool :=
  decide (src < dst + 4 * n) && decide (dst < src + 4 * n)

/-- The byte is in the extent of n pixels at `base` (20_memory.md R56). -/
def inExtent (base n a : Nat) : Bool :=
  decide (base ≤ a) && decide (a < base + 4 * n)

/-- The byte is in the command's source extent SE (R56). -/
def Latched.inSource (c : Latched) (a : Nat) : Bool :=
  inExtent c.src.toNat c.count a

/-- The byte is in the command's destination extent DE (R56). -/
def Latched.inDest (c : Latched) (a : Nat) : Bool :=
  inExtent c.dst.toNat c.count a

/-- The command latched at acceptance (10_state.md R31). -/
def latch (i : Instr) (s : State) : Latched where
  op    := i
  src   := s.src
  dst   := s.dst
  count := pixelCount i s
  code  := s.bsz

/-- The prefix length nb = W & ~(B - 1), in pixels (41_row_driver.md R141). -/
def prefixPixels (n b : Nat) : Nat :=
  (BitVec.ofNat 32 n &&& ~~~(BitVec.ofNat 32 (b - 1))).toNat

end Sys2Proof.Machine
end

