-- ==== Sys2Proof/Machine/Commands.lean ====
section
/-! DEFINITION. What a host write of CMD does (30_encoding.md R86), and the meanings of the three commands: the checks
in the order of 60_exceptions.md R175, then acceptance. The engine performs an accepted command (Engine.lean). -/

namespace Sys2Proof.Machine

/-- The start of R86: a CMD write is dropped while BUSY (10_state.md R33) and while ERR = 1 (60_exceptions.md R180);
otherwise DONE is cleared and the request goes on. -/
def requestCommand (go : State → Host.Outcome State Fault Refusal) (s : State) : Host.Outcome State Fault Refusal :=
  if s.busy then .next s.dropWrite
  else if s.error.isSome then .next s.dropWrite
  else go { s with doneFlag := false }

/-- The end of R86: the operands are latched, done_set is empty, BUSY is set. M0 is memory now (20_memory.md R62). -/
def accept (c : Latched) (s : State) : State :=
  { s with engine := some { cmd := c, before := s.mem, done := [], hostWrites := [] } }

/-- The checks of R86 after the opcode's own: Range, then Overlap, then acceptance. An extent on side-effecting memory
is refused as 20_memory.md R59 says a model does, when the command would otherwise be accepted (log 14). -/
def admitCommand (c : Latched) (s : State) : Host.Outcome State Fault Refusal :=
  if outOfRange c.src.toNat c.dst.toNat c.count then .next (s.raise .range)
  else if overlaps c.src.toNat c.dst.toNat c.count then .next (s.raise .overlap)
  else if touchesSideEffecting s.platform c.src.toNat (4 * c.count)
      || touchesSideEffecting s.platform c.dst.toNat (4 * c.count) then .refused .sideEffectingExtent
  else .next (accept c s)

/-- PIXEL (40_pixelblock_transform.md R110): S = SRC, D = DST, n = 1; CTRL.BSZ and WIDTH are not used. -/
def execPixel (s : State) : Host.Outcome State Fault Refusal :=
  requestCommand (fun t => admitCommand (latch .pixel t) t) s

/-- BLOCK (R111): S = SRC, D = DST, n = B = Bsize(CTRL.BSZ); WIDTH is not used. -/
def execBlock (s : State) : Host.Outcome State Fault Refusal :=
  requestCommand (fun t => admitCommand (latch .block t) t) s

/-- ROW (41_row_driver.md R140): S = SRC, D = DST, n = WIDTH, B = Bsize(CTRL.BSZ); ZeroWidth if n = 0
(60_exceptions.md R172), before Range. -/
def execRow (s : State) : Host.Outcome State Fault Refusal :=
  requestCommand (fun t => if t.width = 0 then .next (t.raise .zeroWidth) else admitCommand (latch .row t) t) s

/-- A CMD write whose value is no command: IllegalCommand, checked before every other error (R171). The offending
value is not kept (R170). -/
def rejectCommand (s : State) : Host.Outcome State Fault Refusal :=
  requestCommand (fun t => .next (t.raise .illegalCommand)) s

end Sys2Proof.Machine
end

