-- ==== Sys2Proof/Machine/Dispatch.lean ====
section
/-! DEFINITION. The dispatch of the commands to their meanings, one arm per constructor of Instr. -/

namespace Sys2Proof.Machine

def exec (i : Instr) (s : State) : Host.Outcome State Fault Refusal :=
  match i with
  | .pixel => Sys2Proof.Machine.execPixel s
  | .block => Sys2Proof.Machine.execBlock s
  | .row => Sys2Proof.Machine.execRow s

end Sys2Proof.Machine
end

