-- ==== Sys2Proof/Machine/Datapath.lean ====
section
/-! DEFINITION. The PixelBlock Transform's datapath (40_pixelblock_transform.md R100 to R109): the luma function, lane
extraction, repack, the per-pixel transform P and the block transform T_B. -/

namespace Sys2Proof.Machine

/-- A pixel: the bytes at offsets 0 to 3 of its unit (00_scope.md R11, 20_memory.md R51). -/
structure Pixel where
  b : Byte
  g : Byte
  r : Byte
  a : Byte
deriving DecidableEq, Repr

/-- The pixel's four bytes, lower address first (R51). -/
def Pixel.bytes (p : Pixel) : List Byte := [p.b, p.g, p.r, p.a]

/-- The byte at an offset of the pixel (R51). -/
def Pixel.byteAt (p : Pixel) (k : Nat) : Byte := p.bytes.getD k 0

/-- The weights, bound to channels by name (R100), and the rounding bias. -/
def weightR : Acc := 77
def weightG : Acc := 150
def weightB : Acc := 29
def roundingBias : Acc := 128

/-- The lane accumulator: unsigned 16 bits (R101, R103). -/
def accumulate (b g r : Byte) : Acc :=
  weightR * r.setWidth 16 + weightG * g.setWidth 16 + weightB * b.setWidth 16 + roundingBias

/-- The saturate-to-8-bit step, present though it never alters a value (R102, R103). -/
def saturate (x : Acc) : Byte :=
  if x.toNat > 255 then 255 else x.setWidth 8

/-- The luma function (R101), computed as R103 says: accumulate, shift right by 8, saturate. -/
def luma (b g r : Byte) : Byte :=
  saturate (accumulate b g r >>> 8)

/-- Repack: the gray byte in the B, G and R positions, alpha 0xFF (R107). -/
def repack (y : Byte) : Pixel := ⟨y, y, y, 0xFF⟩

/-- The gray byte of a pixel; its alpha does not enter (R105). -/
def Pixel.gray (p : Pixel) : Byte := luma p.b p.g p.r

/-- The per-pixel transform P, which the scalar unit computes (R108, R109). -/
def Pixel.transform (p : Pixel) : Pixel := repack p.gray

/-- Lane extraction: lane j's channels are the bytes 4j to 4j + 3 (R104). -/
def lanePixel (input : List Byte) (j : Nat) : Pixel :=
  ⟨input.getD (4 * j) 0, input.getD (4 * j + 1) 0, input.getD (4 * j + 2) 0, input.getD (4 * j + 3) 0⟩

/-- The block transform T_B: every lane by P, lower addresses first (R106, R108). -/
def transformBlock (lanes : Nat) (input : List Byte) : List Byte :=
  (List.range lanes).flatMap fun j => (lanePixel input j).transform.bytes

end Sys2Proof.Machine
end

