-- ==== Sys2Proof/Machine/Engine.lean ====
section
/-! DEFINITION. The engine (30_encoding.md R87, 40_pixelblock_transform.md R110, R111, 41_row_driver.md R140 to R146,
60_exceptions.md R176): its work units, a work step, the completion step and the BusFault step, and what its
destination bytes hold when a command is cut short or raced (R176, 20_memory.md R64). -/

namespace Sys2Proof.Machine

/-- One iteration of the loops of R140: a whole block of B lanes, by its number, or one pixel of the scalar unit, by
its index. -/
inductive WorkUnit where
  | block (k : Nat)
  | scalar (i : Nat)
deriving DecidableEq, Repr

/-- B of the latched command (30_encoding.md R84). -/
def Latched.lanes (c : Latched) : Nat := blockSize c.code

/-- The pixel index a unit starts at (R140, R141). -/
def WorkUnit.first (b : Nat) : WorkUnit → Nat
  | .block k => k * b
  | .scalar i => i

/-- How many pixels a unit covers. -/
def WorkUnit.pixels (b : Nat) : WorkUnit → Nat
  | .block _ => b
  | .scalar _ => 1

/-- The split of n pixels: the prefix in whole blocks (R141), the remainder one pixel at a time by the scalar unit
(R142). -/
def splitUnits (n b : Nat) : List WorkUnit :=
  (List.range (prefixPixels n b / b)).map .block
    ++ (List.range (n - prefixPixels n b)).map fun j => .scalar (prefixPixels n b + j)

/-- The units of a command. PIXEL uses the scalar unit (R110); BLOCK is one block of its n = B pixels (R111); ROW is
split (R140). -/
def Latched.units (c : Latched) : List WorkUnit :=
  match c.op with
  | .pixel => (List.range c.count).map .scalar
  | .block => splitUnits c.count c.lanes
  | .row => splitUnits c.count c.lanes

/-- The pixel index is in done_set (10_state.md R31). -/
def Running.isDone (r : Running) (i : Nat) : Bool :=
  r.done.any fun e => e.1 == i

/-- The units still to do, in increasing order. -/
def Running.pending (r : Running) : List WorkUnit :=
  r.cmd.units.filter fun u => !r.isDone (u.first r.cmd.lanes)

/-- The unit the engine does now: any of the pending ones, as the event's choice says (20_memory.md R61). -/
def Running.nextUnit (r : Running) (choice : Nat) : Option WorkUnit :=
  r.pending[choice % r.pending.length]?

/-- The values the host has written to a byte of the extents during the command, oldest first (R64). -/
def Running.hostValues (r : Running) (a : Nat) : List Byte :=
  (r.hostWrites.filter fun c => c.1 == a).map (·.2)

/-- One engine read of a source byte: memory's value, or, where the host has written the byte during the command, any
of its values since acceptance (R64). `k` numbers the draw. -/
def State.sourceByte (s : State) (r : Running) (k a : Nat) : Byte :=
  match r.hostValues a with
  | [] => readByte s.mem a
  | v :: vs => pick k (readByte r.before a) (v :: vs)

/-- MemRead(a, n) on the memory port during a command. -/
def State.sourceBytes (s : State) (r : Running) (k a n : Nat) : List Byte :=
  (List.range n).map fun j => s.sourceByte r (k + j) (a + j)

/-- The source address of pixel i: S + 4 i (R51). -/
def Latched.sourceAddr (c : Latched) (i : Nat) : Nat := c.src.toNat + 4 * i

/-- The destination address of pixel i: D + 4 i (R51). -/
def Latched.destAddr (c : Latched) (i : Nat) : Nat := c.dst.toNat + 4 * i

/-- The port admits every byte of `[a, a + n)` (20_memory.md R60). -/
def admitsRange (p : Platform) (a n : Nat) : Bool :=
  (List.range n).all fun j => admits p (a + j)

/-- The unit's extents lie in the address space of 2^32 bytes (R50). -/
def Latched.unitInSpace (c : Latched) (u : WorkUnit) : Bool :=
  decide (c.sourceAddr (u.first c.lanes) + 4 * u.pixels c.lanes ≤ 2 ^ 32)
    && decide (c.destAddr (u.first c.lanes) + 4 * u.pixels c.lanes ≤ 2 ^ 32)

/-- The port admits every byte the unit reads and writes. -/
def unitAdmitted (p : Platform) (c : Latched) (u : WorkUnit) : Bool :=
  admitsRange p (c.sourceAddr (u.first c.lanes)) (4 * u.pixels c.lanes)
    && admitsRange p (c.destAddr (u.first c.lanes)) (4 * u.pixels c.lanes)

/-- What a unit computes: T_B of its bytes for a block, P of its pixel for the scalar unit (40_pixelblock_transform.md
R108). -/
def WorkUnit.output (b : Nat) (u : WorkUnit) (input : List Byte) : List Byte :=
  match u with
  | .block _ => transformBlock b input
  | .scalar _ => (lanePixel input 0).transform.bytes

/-- The work step: read the unit's source bytes, write its destination bytes, add its pixels to done_set (R110, R111,
R140). -/
def State.performUnit (r : Running) (u : WorkUnit) (s : State) : State :=
  let c := r.cmd
  let i0 := u.first c.lanes
  let m := u.pixels c.lanes
  let input := s.sourceBytes r s.draws (c.sourceAddr i0) (4 * m)
  State.drew (4 * m) { s with
    mem := writeBytes s.mem (c.destAddr i0) (u.output c.lanes input)
    engine := some { r with
      done := r.done ++ (List.range m).map fun j => (i0 + j, (lanePixel input j).gray) } }

/-- The engine's own value of a destination pixel: what it wrote, or, if it has not written it yet, what it would write
from a read of the source now (R57, R108). -/
def State.enginePixel (s : State) (r : Running) (k i : Nat) : Pixel :=
  match r.done.lookup i with
  | some y => repack y
  | none => (lanePixel (s.sourceBytes r k (r.cmd.sourceAddr i) 4) 0).transform

/-- The engine's own value of a destination byte: the byte at its offset in its pixel (R51). -/
def State.engineByte (s : State) (r : Running) (k a : Nat) : Byte :=
  (s.enginePixel r k ((a - r.cmd.dst.toNat) / 4)).byteAt ((a - r.cmd.dst.toNat) % 4)

/-- What a destination byte holds after a command was cut short: its value before the command, its final value
(60_exceptions.md R176, 70_reset_and_hazards.md R202), or a value the host wrote in a race (R64); one draw per byte. -/
def State.cutByte (s : State) (r : Running) (k a : Nat) : Byte :=
  pick k (readByte r.before a) (s.engineByte r (k + 1) a :: r.hostValues a)

/-- How many draws `cutByte` numbers for one byte: its own and its pixel's four source bytes. -/
def drawsPerByte : Nat := 5

/-- Memory after a command was cut short: each ADMITTED byte of the destination extent is drawn, and no other byte
changes (R176, R202). -/
def State.cutMemory (s : State) (r : Running) : Memory :=
  (List.range (4 * r.cmd.count)).foldl
    (fun m j =>
      if admits s.platform (r.cmd.dst.toNat + j) then
        writeByte m (r.cmd.dst.toNat + j) (s.cutByte r (s.draws + drawsPerByte * j) (r.cmd.dst.toNat + j))
      else m)
    s.mem

/-- The engine is IDLE again; the host has not yet observed it (70_reset_and_hazards.md R206). -/
def State.retire (r : Running) (s : State) : State :=
  { s with engine := none, unobserved := 
    { cmd := r.cmd, before := r.before, released := false, rewritten := [] } :: s.unobserved }

/-- The command is cut short: the destination bytes are drawn and the engine stops. -/
def State.cutShort (r : Running) (s : State) : State :=
  State.drew (drawsPerByte * (4 * r.cmd.count)) { s with mem := s.cutMemory r } |>.retire r

/-- The BusFault step: BUSY <- 0, ERR <- 1, ERRCODE <- 5 (60_exceptions.md R176). -/
def State.busFault (r : Running) (s : State) : State :=
  (s.cutShort r).raise .busFault

/-- Memory at completion: the engine's bytes, save that a destination byte the host wrote during the command holds the
host's value or the engine's (R64). -/
def State.completedMemory (s : State) (r : Running) : Memory :=
  r.hostWrites.zipIdx.foldl
    (fun m e =>
      if r.cmd.inDest e.1.1 then
        writeByte m e.1.1 (pick (s.draws + drawsPerByte * e.2)
          (s.engineByte r (s.draws + drawsPerByte * e.2 + 1) e.1.1) (r.hostValues e.1.1))
      else m)
    s.mem

/-- The completion step: BUSY <- 0 and DONE <- 1 together (30_encoding.md R87). -/
def State.complete (r : Running) (s : State) : State :=
  let t := State.drew (drawsPerByte * r.hostWrites.length) { s with mem := s.completedMemory r } |>.retire r
  { t with doneFlag := true }

/-- One step of the engine: nothing while IDLE; else a work step, a BusFault step if the port does not admit a byte of
the unit, or, when done_set is full, the completion step (R87, R176). -/
def engineStep (choice : Nat) (s : State) : Host.Outcome State Fault Refusal :=
  match s.engine with
  | none => .next s
  | some r =>
    match r.nextUnit choice with
    | none => .next (s.complete r)
    | some u =>
      if !r.cmd.unitInSpace u then .fault .outsideAddressSpace
      else if unitAdmitted s.platform r.cmd u then .next (s.performUnit r u)
      else .next (s.busFault r)

end Sys2Proof.Machine
end

