-- ==== Sys2Proof/Machine/HostMemory.lean ====
section
/-! DEFINITION. The host's own accesses to data memory (20_memory.md R50, R64, 70_reset_and_hazards.md R206): ordinary
accesses to one coherent byte array (R67), and the value sets of the accesses that race with a command. -/

namespace Sys2Proof.Machine

/-- The ended commands whose result in this byte the host may not use yet (R207): the byte is in the destination extent,
and the host has not written it since its accesses there ceased to be races. -/
def State.unobservedAt (s : State) (a : Nat) : List Finished :=
  s.unobserved.filter fun f => f.cmd.inDest a && !f.rewritten.contains a

/-- A command that wrote the byte has ended, and the host has not read STATUS with BUSY = 0 since (R206). -/
def State.ownedDest (s : State) (a : Nat) : Bool :=
  s.unobserved.any fun f => !f.released && f.cmd.inDest a

/-- The same of a command that read the byte (R206). -/
def State.ownedSource (s : State) (a : Nat) : Bool :=
  s.unobserved.any fun f => !f.released && f.cmd.inSource a

/-- The byte is in the destination extent of the running command. -/
def State.runningDest (s : State) (a : Nat) : Bool :=
  s.engine.any fun r => r.cmd.inDest a

/-- The byte is in the source extent of the running command. -/
def State.runningSource (s : State) (a : Nat) : Bool :=
  s.engine.any fun r => r.cmd.inSource a

/-- A host read of the byte is a race: it is in the destination extent of a command, and the host has not read STATUS
with BUSY = 0 since it was accepted (R64, R206). -/
def State.readRaces (s : State) (a : Nat) : Bool :=
  s.runningDest a || s.ownedDest a

/-- A host write of the byte is a race: it is in either extent of such a command (R64, R206). -/
def State.writeRaces (s : State) (a : Nat) : Bool :=
  s.runningDest a || s.runningSource a || s.ownedDest a || s.ownedSource a

/-- The values memory may show the host now: the value before the command or its final value (R64), or one the host
itself wrote there, for a byte of the running command's destination; else what memory holds. -/
def State.hostView (s : State) (a : Nat) : Byte × List Byte :=
  match s.engine with
  | some r =>
    if r.cmd.inDest a then (readByte r.before a, s.engineByte r (s.draws + 1) a :: r.hostValues a)
    else (readByte s.mem a, [])
  | none => (readByte s.mem a, [])

/-- The value a host read returns: one of the values of `hostView`, or, until the host may use the results of a command
that wrote the byte, the byte's value before that command (R64, R206, R207). -/
def State.hostReadByte (s : State) (a : Nat) : Byte :=
  pick s.draws (s.hostView a).1 ((s.hostView a).2 ++ (s.unobservedAt a).map fun f => readByte f.before a)

/-- The value a host write leaves: the host's, or, while the write races with an ended command that wrote the byte, the
host's or the engine's (R64, R206). A write that races with the RUNNING command is settled at its completion. -/
def State.hostWriteByte (s : State) (a : Nat) (v : Byte) : Byte :=
  if s.ownedDest a then pick s.draws v [readByte s.mem a] else v

/-- A host write of a destination byte that is no race any more settles what the byte holds. -/
def Finished.noteWrite (a : Nat) (f : Finished) : Finished :=
  if f.released && f.cmd.inDest a then { f with rewritten := a :: f.rewritten } else f

/-- The running command's log of host writes to its extents (R64). -/
def Running.logWrite (a : Nat) (v : Byte) (r : Running) : Running :=
  if r.cmd.inSource a || r.cmd.inDest a then { r with hostWrites := r.hostWrites ++ [(a, v)] } else r

/-- A host read of one byte of data memory. -/
def hostMemRead (a : Addr) (s : State) : Host.Outcome State Fault Refusal :=
  if sideEffecting s.platform a.toNat then .refused .sideEffectingAccess
  else .next (State.drew drawsPerByte { s with
    readouts := .memory a (s.hostReadByte a.toNat) :: s.readouts
    racy := s.racy || s.readRaces a.toNat })

/-- A host write of one byte of data memory. Where the byte is in the SOURCE extent of a command that has ended
unobserved, the write is a race (R206) and the run is marked, but the destination keeps its values: R64 speaks of engine
reads, and by R87 and R176 an ended command makes none any more. DEDUCED: log 9. -/
def hostMemWrite (a : Addr) (v : Byte) (s : State) : Host.Outcome State Fault Refusal :=
  if sideEffecting s.platform a.toNat then .refused .sideEffectingAccess
  else .next (State.drew drawsPerByte { s with
    mem := writeByte s.mem a.toNat (s.hostWriteByte a.toNat v)
    engine := s.engine.map (Running.logWrite a.toNat (s.hostWriteByte a.toNat v))
    unobserved := s.unobserved.map (Finished.noteWrite a.toNat)
    racy := s.racy || s.writeRaces a.toNat })

end Sys2Proof.Machine
end

