-- ==== Sys2Proof/Machine/Flags.lean ====
section
/-! DEFINITION. The STATUS register (10_state.md R28, R37): its word as the host reads it, and what a write of it does.
No command sets a flag as a side effect of its data (R37). -/

namespace Sys2Proof.Machine

/-- The codes of 60_exceptions.md R170. -/
def errorCode : ErrorKind → BitVec 4
  | .illegalCommand => 1
  | .zeroWidth => 2
  | .range => 3
  | .overlap => 4
  | .busFault => 5

/-- ERRCODE (R28): 0 while ERR = 0. -/
def errcodeField : Option ErrorKind → BitVec 4
  | none => 0
  | some e => errorCode e

/-- STATUS as read (R28): ERRCODE in bits 11:8, DROP, ERR, DONE, BUSY in bits 3 to 0, the rest 0. -/
def statusWord (s : State) : Word :=
  (0 : BitVec 20) ++ errcodeField s.error ++ (0 : BitVec 4) ++ BitVec.ofBool s.drop ++ BitVec.ofBool s.error.isSome
    ++ BitVec.ofBool s.doneFlag ++ BitVec.ofBool s.busy

/-- DONE is W1C on bit 1 (R28). -/
def clearDone (v : Word) (s : State) : State :=
  if v.getLsbD 1 then { s with doneFlag := false } else s

/-- ERR is W1C on bit 2, which acknowledges the error (R28, 60_exceptions.md R179). -/
def clearErr (v : Word) (s : State) : State :=
  if v.getLsbD 2 then s.acknowledge else s

/-- DROP is W1C on bit 3 (R28). -/
def clearDrop (v : Word) (s : State) : State :=
  if v.getLsbD 3 then { s with drop := false } else s

/-- A write of STATUS: never dropped, the other bits ignored (R28). -/
def writeStatus (v : Word) (s : State) : State :=
  clearDrop v (clearErr v (clearDone v s))

end Sys2Proof.Machine
end

