-- ==== Sys2Proof/Machine/Registers.lean ====
section
/-! DEFINITION. The register window (10_state.md R20 to R29, R33, R34): the map, reads, and writes of every register but
CMD, whose writes are command requests (Bus.lean). -/

namespace Sys2Proof.Machine

/-- The named registers of the window (R20). -/
inductive Reg where
  | cap
  | ctrl
  | src
  | dst
  | width
  | cmd
  | status
deriving DecidableEq, Repr

/-- The offset of a register (R20). -/
def regOffset : Reg → Nat
  | .cap => 0x00
  | .ctrl => 0x04
  | .src => 0x08
  | .dst => 0x0C
  | .width => 0x10
  | .cmd => 0x14
  | .status => 0x18

/-- The register at an offset; the other offsets are reserved (R29). -/
def regAt (off : Nat) : Option Reg :=
  if off = 0x00 then some .cap
  else if off = 0x04 then some .ctrl
  else if off = 0x08 then some .src
  else if off = 0x0C then some .dst
  else if off = 0x10 then some .width
  else if off = 0x14 then some .cmd
  else if off = 0x18 then some .status
  else none

/-- The code a write of CTRL asks for: min(w[2:0], 4) (R23). -/
def requestedCode (w : Word) : Fin 5 :=
  Fin.ofNat 5 (min (w.extractLsb' 0 3).toNat 4)

/-- The WARL rule of CTRL.BSZ (R23): the largest supported code not above the request. Code 0 is always supported. -/
def legalCode (p : Platform) (req : Fin 5) : Fin 5 :=
  (([4, 3, 2, 1] : List (Fin 5)).find? fun c => decide (c ≤ req) && supports p c).getD 0

/-- The value a host read of a register returns (R21 to R28): CMD reads 0, reserved bits read 0. -/
def readRegister (s : State) : Reg → Word
  | .cap => (supportedBsz s.platform).setWidth 32
  | .ctrl => BitVec.ofNat 32 s.bsz.val
  | .src => s.src
  | .dst => s.dst
  | .width => s.width
  | .cmd => 0
  | .status => statusWord s

/-- A host read at an offset: reserved offsets read 0 (R29). -/
def readOffset (s : State) (off : Nat) : Word :=
  match regAt off with
  | some r => readRegister s r
  | none => 0

/-- A write that is dropped while BUSY = 1 and taken otherwise, whatever ERR is (R33, 60_exceptions.md R180). -/
def unlessBusy (f : State → State) (s : State) : State :=
  if s.busy then s.dropWrite else f s

/-- A write of CTRL that is taken (R22, R23). -/
def setCtrl (v : Word) (s : State) : State := { s with bsz := legalCode s.platform (requestedCode v) }

/-- A write of SRC that is taken (R24). -/
def setSrc (v : Word) (s : State) : State := { s with src := v }

/-- A write of DST that is taken (R25). -/
def setDst (v : Word) (s : State) : State := { s with dst := v }

/-- A write of WIDTH that is taken (R26). -/
def setWidthReg (v : Word) (s : State) : State := { s with width := v }

end Sys2Proof.Machine
end

