-- ==== Sys2Proof/Machine/Bus.lean ====
section
/-! DEFINITION. What each event does at the block: host register accesses (10_state.md R33 to R35), command requests
(30_encoding.md R86), the host's `wait` (R90) and `require` (70_reset_and_hazards.md R211), and reset (R200 to R202). -/

namespace Sys2Proof.Machine

/-- A command request: the value is decoded, and the command is executed or the value rejected (R85, R86). -/
def writeCmd (v : Word) (s : State) : Host.Outcome State Fault Refusal :=
  match decode v with
  | .ok i => exec i s
  | .error _ => rejectCommand s

/-- A host write of a register, by name: CAP is read-only (10_state.md R21); a STATUS write is never dropped (R28). -/
def writeRegister (r : Reg) (v : Word) (s : State) : Host.Outcome State Fault Refusal :=
  match r with
  | .cap => .next s
  | .ctrl => .next (unlessBusy (setCtrl v) s)
  | .src => .next (unlessBusy (setSrc v) s)
  | .dst => .next (unlessBusy (setDst v) s)
  | .width => .next (unlessBusy (setWidthReg v) s)
  | .cmd => writeCmd v s
  | .status => .next (writeStatus v s)

/-- A host write at an offset: reserved offsets ignore it (R29). -/
def writeOffset (off : Nat) (v : Word) (s : State) : Host.Outcome State Fault Refusal :=
  match regAt off with
  | some r => writeRegister r v s
  | none => .next s

/-- The one admitted form of a register access: an aligned 32-bit one (R35). -/
def accessAdmitted (off : Nat) (width : AccessWidth) : Bool :=
  width == .word && off % 4 == 0

/-- What a host register access is to the block. -/
inductive Access where
  /-- It takes no byte of the window: it does nothing to the block (log 12). -/
  | elsewhere
  /-- It takes a byte of the window and is not an aligned 32-bit access of it: the model refuses it (R35). -/
  | misformed
  /-- It is an aligned 32-bit access at the offset. -/
  | register (off : Nat)
deriving DecidableEq, Repr

/-- An access that starts outside the window and reaches into it is misformed too: R35 does not name it, and taking it
for one that R35 refuses is the model's choice. DEDUCED: log 12. -/
def resolveAccess (p : Platform) (at_ : HostAddr) (width : AccessWidth) : Access :=
  match windowOffset p at_ with
  | some off => if accessAdmitted off width then .register off else .misformed
  | none => if reachesWindow p at_ width then .misformed else .elsewhere

/-- A host write access. -/
def hostWrite (at_ : HostAddr) (width : AccessWidth) (v : Word) (s : State) : Host.Outcome State Fault Refusal :=
  match resolveAccess s.platform at_ width with
  | .elsewhere => .next s
  | .misformed => .refused .registerAccessForm
  | .register off => writeOffset off v s

/-- The host has read STATUS with BUSY = 0 since the command ended (R206). -/
def Finished.release (f : Finished) : Finished := { f with released := true }

/-- A host read of STATUS. With BUSY = 0 and DONE = 1 it orders after every write of the commands that have ended
(20_memory.md R63 item 2, 70_reset_and_hazards.md R207). With BUSY = 0 alone it only ends the time in which the host's
accesses to their extents are races (R206). -/
def observeStatus (s : State) : State :=
  if s.busy then s
  else if s.doneFlag then { s with unobserved := [] }
  else { s with unobserved := s.unobserved.map Finished.release }

/-- A host read of an offset: the value goes to the host, and no register changes (10_state.md R34). -/
def readAt (off : Nat) (s : State) : State :=
  let t := if regAt off = some .status then observeStatus s else s
  { t with readouts := .register off (readOffset s off) :: s.readouts }

/-- A host read access. -/
def hostRead (at_ : HostAddr) (width : AccessWidth) (s : State) : Host.Outcome State Fault Refusal :=
  match resolveAccess s.platform at_ width with
  | .elsewhere => .next s
  | .misformed => .refused .registerAccessForm
  | .register off => .next (readAt off s)

/-- The host waits (R90): while BUSY it polls STATUS, which has no side effect, and the engine moves; the last poll, the
one that returns BUSY = 0, ends the wait. Log 20. -/
def hostWait (s : State) : Host.Outcome State Fault Refusal :=
  if s.busy then engineStep 0 { s with events := .wait :: s.events }
  else .next (readAt (regOffset .status) s)

/-- The STATUS value the host read last. -/
def lastStatus : List Readout → Option Word
  | [] => none
  | .register off v :: l => if off = regOffset .status then some v else lastStatus l
  | .memory _ _ :: l => lastStatus l

/-- The last STATUS value the host read has DONE = 1 and ERR = 0 (70_reset_and_hazards.md R211). -/
def lastStatusGood (s : State) : Bool :=
  (lastStatus s.readouts).any fun v => v.getLsbD 1 && !v.getLsbD 2

/-- The event is one of the host program's. -/
def Event.isHost : Event → Bool
  | .reset => false
  | .engine _ => false
  | _ => true

/-- The host program stops: none of its accesses is to come. Log 23. -/
def stopHost (s : State) : State :=
  { s with events := s.events.filter fun e => !e.isHost, stopped := true }

/-- The `require` of the host loop (R211): the host goes on, or its program stops. -/
def hostRequire (s : State) : State :=
  if lastStatusGood s then s else stopHost s

/-- The block's registers at their reset values, the engine IDLE (10_state.md R36). -/
def State.clearRegisters (s : State) : State :=
  { s with bsz := 0, src := 0, dst := 0, width := 0, doneFlag := false, error := none, drop := false, engine := none }

/-- Reset (R200): memory is not touched (R201), save that a command it cuts short leaves each admitted destination byte
with its old or its final value (R202), which the model marks. -/
def applyReset (s : State) : State :=
  match s.engine with
  | none => s.clearRegisters
  | some r => State.clearRegisters { s.cutShort r with resetCut := true }

/-- What an event does. -/
def perform (e : Event) (s : State) : Host.Outcome State Fault Refusal :=
  match e with
  | .regWrite at_ width v => hostWrite at_ width v s
  | .regRead at_ width => hostRead at_ width s
  | .memWrite a v => hostMemWrite a v s
  | .memRead a => hostMemRead a s
  | .wait => hostWait s
  | .requireDone => .next (hostRequire s)
  | .reset => .next (applyReset s)
  | .engine choice => engineStep choice s

end Sys2Proof.Machine
end

