-- ==== Sys2Proof/Machine/Step.lean ====
section
/-! DEFINITION. One step of the machine: the next event of the serialised order (60_exceptions.md R183), or, when no
event is left, a step of the engine (70_reset_and_hazards.md R210: a BUSY engine eventually moves). -/

namespace Sys2Proof.Machine

/-- One step. With no event left and the engine IDLE, the block waits for register accesses: nothing changes (R203). -/
def step (s : State) : Host.Outcome State Fault Refusal :=
  match s.events with
  | [] => engineStep 0 s
  | e :: rest => perform e { s with events := rest }

/-- The host's next event is a write of the word `w` to CMD, the only place a command comes from (30_encoding.md R80,
R86). The word is one 32-bit register value; the bits above `nbits` are 0. -/
def State.withFetchWord (s : State) (nbits w : Nat) : State :=
  { s with events := .regWrite (.offset 0x14) .word (BitVec.ofNat 32 (w % 2 ^ nbits)) :: s.events }

end Sys2Proof.Machine
end

