-- ==== Sys2Proof/Machine/HostProgram.lean ====
section
/-! DEFINITION. Host programs (30_encoding.md R89, R90): the operations of the host assembler, the register accesses each
stands for, and the host loop over rows (70_reset_and_hazards.md R211). A program is the list of its events, placed in
the machine from outside (log 1). -/

namespace Sys2Proof.Machine

/-- One line of a host program: the primitive operations of R89 and the pseudo-operations of R90. -/
inductive HostOp where
  | wr (r : Reg) (value : Word)
  | rd (r : Reg)
  | pixel
  | block
  | row
  | setbsz (c : Word)
  | setsrc (a : Word)
  | setdst (a : Word)
  | setw (n : Word)
  | wait
  | clrst
  | xpixel (s d : Word)
  | xblock (s d : Word)
  | xrow (s d n : Word)
  /-- `require STATUS.DONE = 1 and STATUS.ERR = 0` of the host loop, on the value `wait` read last (R90, R211). -/
  | requireDone
deriving DecidableEq, Repr

/-- `wr REG, value`: an aligned 32-bit host write at the register's offset (R89). -/
def wrEvent (r : Reg) (v : Word) : Event := .regWrite (.offset (regOffset r)) .word v

/-- `rd REG`: an aligned 32-bit host read at the register's offset (R89). -/
def rdEvent (r : Reg) : Event := .regRead (.offset (regOffset r)) .word

/-- The write of a command's word to CMD (R89). -/
def cmdEvent (i : Instr) : Event := wrEvent .cmd (encode i)

/-- The register accesses of one line (R89, R90). -/
def assembleOp : HostOp → List Event
  | .wr r v => [wrEvent r v]
  | .rd r => [rdEvent r]
  | .pixel => [cmdEvent .pixel]
  | .block => [cmdEvent .block]
  | .row => [cmdEvent .row]
  | .setbsz c => [wrEvent .ctrl c]
  | .setsrc a => [wrEvent .src a]
  | .setdst a => [wrEvent .dst a]
  | .setw n => [wrEvent .width n]
  | .wait => [.wait]
  | .clrst => [wrEvent .status 0x0000000E]
  | .xpixel s d => [wrEvent .src s, wrEvent .dst d, cmdEvent .pixel, .wait]
  | .xblock s d => [wrEvent .src s, wrEvent .dst d, cmdEvent .block, .wait]
  | .xrow s d n => [wrEvent .src s, wrEvent .dst d, wrEvent .width n, cmdEvent .row, .wait]
  | .requireDone => [.requireDone]

/-- The register accesses of a program, line by line. -/
def assemble (p : List HostOp) : List Event := p.flatMap assembleOp

/-- The source's and the destination's buffers, each of `stride * height` bytes, share no byte (R211). -/
def buffersDisjoint (srcBase dstBase size : Nat) : Bool :=
  decide (srcBase + size ≤ dstBase) || decide (dstBase + size ≤ srcBase)

/-- The host's Image Driver as a program (R211): one `xrow` per row, in increasing order, each followed by its `require`.
It is refused (`none`) where its preconditions fail: width, height, stride (U5) and whole buffers that overlap, or where
an address or the width does not fit a register (D4). Log 23. -/
def convertImage (srcBase dstBase width height stride : Nat) : Option (List HostOp) :=
  if 0 < width ∧ 0 < height ∧ 4 * width ≤ stride ∧ buffersDisjoint srcBase dstBase (stride * height) ∧ width < 2 ^ 32
      ∧ srcBase + (height - 1) * stride < 2 ^ 32 ∧ dstBase + (height - 1) * stride < 2 ^ 32 then
    some ((List.range height).flatMap fun y =>
      [.xrow (BitVec.ofNat 32 (srcBase + y * stride)) (BitVec.ofNat 32 (dstBase + y * stride)) (BitVec.ofNat 32 width),
        .requireDone])
  else none

end Sys2Proof.Machine
end

