-- ==== Sys2Proof/Safety.lean ====
section
/-! DEFINITION. What claims are stated in: several steps, a good run's end (70_reset_and_hazards.md R212), the
invariants of the machine, and the conditions under which a command runs. -/

namespace Sys2Proof.Machine

/-- `k` steps, stopping at the first fault or refusal. -/
def runSteps : Nat → State → Host.Outcome State Fault Refusal
  | 0, s => .next s
  | k + 1, s =>
    match step s with
    | .next t => runSteps k t
    | .fault f => .fault f
    | .refused r => .refused r

/-- The end of a good run (R212): the host program has ended, BUSY = ERR = DROP = 0, no race of 20_memory.md R64, no
reset while BUSY. "Ended" is that its last line was executed: no `require` of it failed, the model's choice
(log 23). -/
def GoodEnd (s : State) : Prop :=
  s.events = [] ∧ s.busy = false ∧ s.error = none ∧ s.drop = false ∧ s.racy = false ∧ s.resetCut = false
    ∧ s.stopped = false

/-- The machine with one more event to come, before all others. -/
def State.withEvent (e : Event) (s : State) : State := { s with events := e :: s.events }

/-- An aligned 32-bit host write at a window offset, when the offset is a multiple of 4 (10_state.md R35). -/
def wordWrite (off : Nat) (v : Word) : Event := .regWrite (.offset off) .word v

/-- An aligned 32-bit host read at a window offset, when the offset is a multiple of 4 (R35). -/
def wordRead (off : Nat) : Event := .regRead (.offset off) .word

/-- The outcome is a next state of which `P` holds. -/
def NextWith (o : Host.Outcome State Fault Refusal) (P : State → Prop) : Prop := ∃ t, o = .next t ∧ P t

/-- CAP, CTRL, SRC, DST and WIDTH are unchanged. -/
def RegsSame (s t : State) : Prop :=
  t.platform = s.platform ∧ t.bsz = s.bsz ∧ t.src = s.src ∧ t.dst = s.dst ∧ t.width = s.width

/-- DONE, ERR, ERRCODE and DROP are unchanged. -/
def FlagsSame (s t : State) : Prop :=
  t.doneFlag = s.doneFlag ∧ t.error = s.error ∧ t.drop = s.drop

/-- Every byte of data memory is unchanged. -/
def MemSame (s t : State) : Prop := ∀ a, readByte t.mem a = readByte s.mem a

/-- The model's own marks and the host's side are unchanged: events to come, values read, unobserved commands. -/
def HostSideSame (s t : State) : Prop :=
  t.events = s.events ∧ t.readouts = s.readouts ∧ t.unobserved = s.unobserved ∧ t.racy = s.racy
    ∧ t.resetCut = s.resetCut ∧ t.stopped = s.stopped

/-- The byte is in the destination extent of no running command and of no ended one whose results the host may not use
yet: a host read of it is no race and is not subject to 70_reset_and_hazards.md R207 (R206). -/
def PlainToRead (s : State) (a : Nat) : Prop :=
  (∀ r, s.engine = some r → r.cmd.inDest a = false) ∧ ∀ f ∈ s.unobserved, f.cmd.inDest a = false

/-- The byte is also in the source extent of no running command and of no ended one before a read of STATUS with
BUSY = 0: a host write of it is no race (R206). -/
def PlainToWrite (s : State) (a : Nat) : Prop :=
  PlainToRead s a ∧ (∀ r, s.engine = some r → r.cmd.inSource a = false)
    ∧ ∀ f ∈ s.unobserved, f.released = true ∨ f.cmd.inSource a = false

/-- An event the model takes: a register access that takes no byte of the window or is an aligned 32-bit one (10_state.md R35),
and no memory access of the host's to a location with side effects (20_memory.md R59). -/
def Event.isTaken (p : Platform) : Event → Bool
  | .regWrite at_ w _ => resolveAccess p at_ w != .misformed
  | .regRead at_ w => resolveAccess p at_ w != .misformed
  | .memWrite a _ => !sideEffecting p a.toNat
  | .memRead a => !sideEffecting p a.toNat
  | .wait => true
  | .requireDone => true
  | .reset => true
  | .engine _ => true

/-- A reset. -/
def Event.isReset : Event → Bool
  | .reset => true
  | _ => false

/-- A memory write of the host's. -/
def Event.isMemWrite : Event → Bool
  | .memWrite _ _ => true
  | _ => false

/-- Every event to come is one the model takes, and no reset. The engine's steps stand among them in any number, in any
place and with any choice. -/
def HostOrderly (s : State) : Prop :=
  ∀ e ∈ s.events, e.isTaken s.platform = true ∧ e.isReset = false

/-- Besides, the host writes no memory. While BUSY = 1 nothing else it does can change a command's operands or its data
(10_state.md R33, R34). -/
def HostQuiet (s : State) : Prop :=
  HostOrderly s ∧ ∀ e ∈ s.events, e.isMemWrite = false

/-- The next event is an aligned 32-bit host write of the value at the window offset. -/
def NextWrites (s : State) (off : Nat) (v : Word) : Prop :=
  ∃ at_ rest, s.events = .regWrite at_ .word v :: rest ∧ windowOffset s.platform at_ = some off

/-- The next event is a reset. -/
def NextResets (s : State) : Prop := ∃ rest, s.events = .reset :: rest

/-- The port admits every byte of both extents of n pixels (20_memory.md R60). -/
def ExtentsAdmitted (p : Platform) (src dst n : Nat) : Prop :=
  ∀ j, j < 4 * n → admits p (src + j) = true ∧ admits p (dst + j) = true

/-- No byte of either extent has side effects (R59). -/
def ExtentsOrdinary (p : Platform) (src dst n : Nat) : Prop :=
  touchesSideEffecting p src (4 * n) = false ∧ touchesSideEffecting p dst (4 * n) = false

/-- A CMD write is not dropped (30_encoding.md R86). -/
def TakesCommands (s : State) : Prop := s.busy = false ∧ s.error = none

/-- None of the checks of R86 stops the command, and its extents are ordinary memory (R59). -/
def Acceptable (i : Instr) (s : State) : Prop :=
  TakesCommands s ∧ 0 < pixelCount i s ∧ outOfRange s.src.toNat s.dst.toNat (pixelCount i s) = false
    ∧ overlaps s.src.toNat s.dst.toNat (pixelCount i s) = false
    ∧ ExtentsOrdinary s.platform s.src.toNat s.dst.toNat (pixelCount i s)

/-- Pixel i of the extent at `base`, as memory holds it (R51). -/
def pixelIn (m : Memory) (base i : Nat) : Pixel :=
  lanePixel (readBytes m (base + 4 * i) 4) 0

/-- The unit is one pixel of the scalar unit (41_row_driver.md R142). -/
def WorkUnit.isScalar : WorkUnit → Bool
  | .scalar _ => true
  | .block _ => false

/-- The final value of a destination byte (40_pixelblock_transform.md R108): its byte of P of the source pixel with the
same index, as memory `m0` holds it. -/
def finalByte (c : Latched) (m0 : Memory) (a : Nat) : Byte :=
  (pixelIn m0 c.src.toNat ((a - c.dst.toNat) / 4)).transform.byteAt ((a - c.dst.toNat) % 4)

/-- What a command leaves when it ends well (R110, R111, 41_row_driver.md R146), from memory `m0` at acceptance: every
destination pixel i is P of source pixel i, every byte outside the destination extent is as it was. -/
def Converted (m0 : Memory) (src dst n : Nat) (m : Memory) : Prop :=
  (∀ i k, i < n → k < 4 → readByte m (dst + 4 * i + k) = (pixelIn m0 src i).transform.byteAt k)
    ∧ ∀ a, inExtent dst n a = false → readByte m a = readByte m0 a

/-- The consistency of the running command: it is what the registers say (10_state.md R31, R33), it passed the checks
(30_encoding.md R86), done_set holds whole units of its pixels, and only bytes of its extents are logged as raced. -/
structure RunningOk (s : State) (r : Running) : Prop where
  latched   : r.cmd = latch r.cmd.op s
  nonempty  : 0 < r.cmd.count
  inRange   : outOfRange r.cmd.src.toNat r.cmd.dst.toNat r.cmd.count = false
  disjoint  : overlaps r.cmd.src.toNat r.cmd.dst.toNat r.cmd.count = false
  beforeWf  : memoryWf r.before = true
  doneLt    : ∀ e ∈ r.done, e.1 < r.cmd.count
  doneUnits : ∀ u ∈ r.cmd.units, ∀ j, j < u.pixels r.cmd.lanes →
    r.isDone (u.first r.cmd.lanes + j) = r.isDone (u.first r.cmd.lanes)
  raced     : ∀ c ∈ r.hostWrites, r.cmd.inSource c.1 = true ∨ r.cmd.inDest c.1 = true

/-- The invariant of the registers and of memory's form: memory is canonical, CTRL.BSZ is a supported code (10_state.md
R22, R23), BUSY and DONE are never both 1, ERR and DONE are never both 1 (R28), no command runs while an error is
pending (60_exceptions.md R180), and a running command is consistent. -/
structure Inv (s : State) : Prop where
  memWf     : memoryWf s.mem = true
  bszLegal  : supports s.platform s.bsz = true
  busyDone  : s.busy = true → s.doneFlag = false
  errDone   : s.error.isSome = true → s.doneFlag = false
  busyErr   : s.busy = true → s.error = none
  running   : ∀ r, s.engine = some r → RunningOk s r

/-- The invariant of the running command's data, on the bytes the host has not raced (20_memory.md R57, R62): a source
byte is as before the command; a destination byte is as before the command until its pixel is done, and then it is the
engine's; and the gray byte of a done pixel is the luma of the pixel in M0. -/
structure DataInv (s : State) (r : Running) : Prop where
  source : ∀ a, r.cmd.inSource a = true → r.hostValues a = [] → readByte s.mem a = readByte r.before a
  dest   : ∀ i k, i < r.cmd.count → k < 4 → r.hostValues (r.cmd.destAddr i + k) = [] →
    readByte s.mem (r.cmd.destAddr i + k) =
      match r.done.lookup i with
      | none => readByte r.before (r.cmd.destAddr i + k)
      | some y => (repack y).byteAt k
  gray   : ∀ i y, i < r.cmd.count → r.done.lookup i = some y →
    (∀ k, k < 4 → r.hostValues (r.cmd.sourceAddr i + k) = []) → y = (pixelIn r.before r.cmd.src.toNat i).gray

/-- Every running command's data is right. -/
def DataOk (s : State) : Prop := ∀ r, s.engine = some r → DataInv s r

end Sys2Proof.Machine
end

