-- ==== Sys2Proof/Certificates/Slice0/Obligations.lean ====
section
/-! DEFINITION. The statements for the provers, from the numbered rules of spec/. OBLIGATIONS.json lists them. -/

open Sys2Proof Sys2Proof.Machine

/-! ### Reset -/

/-- 70_reset_and_hazards.md R200, 10_state.md R36: what reset leaves in every register and in the engine, applied at any
moment, and in the machine the model starts from. -/
def Obligations.ResetSetsRegisters : Prop :=
  (∀ s : State, NextWith (step (s.withEvent .reset)) fun t =>
    readRegister t .cap = (supportedBsz s.platform).setWidth 32 ∧ readRegister t .ctrl = 0
      ∧ readRegister t .src = 0 ∧ readRegister t .dst = 0 ∧ readRegister t .width = 0
      ∧ readRegister t .status = 0 ∧ t.engine = none ∧ t.events = s.events)
    ∧ readRegister State.reset .ctrl = 0 ∧ readRegister State.reset .src = 0 ∧ readRegister State.reset .dst = 0
    ∧ readRegister State.reset .width = 0 ∧ readRegister State.reset .status = 0 ∧ State.reset.engine = none
    ∧ readRegister State.reset .cap = (supportedBsz Config.platform).setWidth 32

/-- R201: reset changes no byte of data memory but, where it cuts a command short (R202: `ResetCutsCommandShort`), the
admitted bytes of that command's destination extent. -/
def Obligations.ResetKeepsMemory : Prop :=
  ∀ s : State, NextWith (step (s.withEvent .reset)) fun t =>
    (∀ a, (∀ r, s.engine = some r → (r.cmd.inDest a && admits s.platform a) = false) →
      readByte t.mem a = readByte s.mem a)
    ∧ (s.busy = false → MemSame s t ∧ t.resetCut = s.resetCut)

/-- R202: reset while BUSY aborts the command and records no error; each admitted byte of the destination extent holds
its value before the command or its final value, every other byte is unchanged, and the run is marked so that no end of
it is good. -/
def Obligations.ResetCutsCommandShort : Prop :=
  ∀ (s : State) (r : Running), Inv s → DataOk s → s.engine = some r → r.hostWrites = [] →
    NextWith (step (s.withEvent .reset)) fun t =>
      t.busy = false ∧ statusWord t = 0 ∧ t.resetCut = true ∧ ¬ GoodEnd t
        ∧ (∀ a, r.cmd.inDest a = true → admits s.platform a = true →
            readByte t.mem a = readByte r.before a ∨ readByte t.mem a = finalByte r.cmd r.before a)
        ∧ ∀ a, (r.cmd.inDest a && admits s.platform a) = false → readByte t.mem a = readByte s.mem a

/-! ### The registers -/

/-- 10_state.md R28 and 60_exceptions.md R170: the bits of STATUS and the error codes. -/
def Obligations.StatusWordBits : Prop :=
  (∀ s : State, (statusWord s).getLsbD 0 = s.busy ∧ (statusWord s).getLsbD 1 = s.doneFlag
    ∧ (statusWord s).getLsbD 2 = s.error.isSome ∧ (statusWord s).getLsbD 3 = s.drop
    ∧ (statusWord s).extractLsb' 4 4 = 0 ∧ (statusWord s).extractLsb' 8 4 = errcodeField s.error
    ∧ (statusWord s).extractLsb' 12 20 = 0)
    ∧ errcodeField none = 0 ∧ errcodeField (some .illegalCommand) = 1 ∧ errcodeField (some .zeroWidth) = 2
    ∧ errcodeField (some .range) = 3 ∧ errcodeField (some .overlap) = 4 ∧ errcodeField (some .busFault) = 5

/-- R28: a write of STATUS is never dropped; 1 clears DONE, ERR (with ERRCODE) and DROP, 0 and the other bits do
nothing. -/
def Obligations.StatusWriteOneToClear : Prop :=
  ∀ (s : State) (v : Word), step (s.withEvent (wordWrite 0x18 v)) = .next { s with
    doneFlag := s.doneFlag && !v.getLsbD 1
    error := if v.getLsbD 2 then none else s.error
    drop := s.drop && !v.getLsbD 3 }

/-- R33: while BUSY = 1, writes to CTRL, SRC, DST, WIDTH and CMD change nothing but DROP <- 1; writes to STATUS take
effect, and writes to read-only or reserved offsets change nothing. -/
def Obligations.BusyDropsWrites : Prop :=
  ∀ (s : State) (off : Nat) (v : Word), s.busy = true →
    (off ∈ [0x04, 0x08, 0x0C, 0x10, 0x14] →
      step (s.withEvent (wordWrite off v)) = .next { s with drop := true })
    ∧ (off = 0x18 → step (s.withEvent (wordWrite off v)) = .next { s with
      doneFlag := s.doneFlag && !v.getLsbD 1
      error := if v.getLsbD 2 then none else s.error
      drop := s.drop && !v.getLsbD 3 })
    ∧ (off = 0x00 ∨ (0x1C ≤ off ∧ off < 0x100 ∧ off % 4 = 0) → step (s.withEvent (wordWrite off v)) = .next s)

/-- R24, R25, R26: a write of SRC, DST or WIDTH while BUSY = 0 stores all 32 bits and changes nothing else, and the
register reads back what was written. -/
def Obligations.OperandWritesStore : Prop :=
  ∀ (s : State) (v : Word), s.busy = false →
    step (s.withEvent (wordWrite 0x08 v)) = .next { s with src := v }
    ∧ step (s.withEvent (wordWrite 0x0C v)) = .next { s with dst := v }
    ∧ step (s.withEvent (wordWrite 0x10 v)) = .next { s with width := v }
    ∧ readOffset { s with src := v } 0x08 = v ∧ readOffset { s with dst := v } 0x0C = v
    ∧ readOffset { s with width := v } 0x10 = v

/-- R23: a write of CTRL while BUSY = 0 stores the largest supported code not above min(w[2:0], 4), reads back as that
code, and changes nothing else: no error, no DROP. -/
def Obligations.CtrlStoresLargestSupportedCode : Prop :=
  ∀ (s : State) (v : Word), s.busy = false → NextWith (step (s.withEvent (wordWrite 0x04 v))) fun t =>
    supports s.platform t.bsz = true ∧ t.bsz.val ≤ min (v.toNat % 8) 4
      ∧ (∀ c : Fin 5, c.val ≤ min (v.toNat % 8) 4 → supports s.platform c = true → c.val ≤ t.bsz.val)
      ∧ (readOffset t 0x04).toNat = t.bsz.val ∧ t = { s with bsz := t.bsz }

/-- R21: CAP's bits, CAP ignores writes, and no step changes it. -/
def Obligations.CapIsConstant : Prop :=
  (∀ (s : State) (i : Nat), (readOffset s 0x00).getLsbD i =
      (decide (i = 0) || (decide (0 < i ∧ i < 5) && s.platform.wideBsz.getLsbD (i - 1))))
    ∧ (∀ (s : State) (v : Word), step (s.withEvent (wordWrite 0x00 v)) = .next s)
    ∧ ∀ s t : State, step s = .next t → readOffset t 0x00 = readOffset s 0x00

/-- R34: a read of any register, at any time, returns its value to the host and changes no register, no flag, no
engine state and no byte of memory. The value of each register: CAP (R21), CTRL (R22), SRC, DST and WIDTH (R24 to R26) as
held; CMD reads 0 (R27); STATUS reads its word (R28: `StatusWordBits`). -/
def Obligations.RegisterReadsHaveNoSideEffect : Prop :=
  (∀ (s : State) (off : Nat), off < 0x100 → off % 4 = 0 → NextWith (step (s.withEvent (wordRead off))) fun t =>
    t.readouts = .register off (readOffset s off) :: s.readouts ∧ RegsSame s t ∧ FlagsSame s t
      ∧ t.engine = s.engine ∧ t.mem = s.mem ∧ t.events = s.events ∧ t.racy = s.racy ∧ t.resetCut = s.resetCut
      ∧ t.stopped = s.stopped)
    ∧ ∀ s : State, readOffset s 0x00 = (supportedBsz s.platform).setWidth 32
      ∧ readOffset s 0x04 = BitVec.ofNat 32 s.bsz.val ∧ readOffset s 0x08 = s.src ∧ readOffset s 0x0C = s.dst
      ∧ readOffset s 0x10 = s.width ∧ readOffset s 0x14 = 0 ∧ readOffset s 0x18 = statusWord s

/-- R29: reserved offsets read 0 and ignore writes; reserved bits of CAP, CTRL and STATUS read 0, and what a write puts
in them makes no difference; and an access at an offset that is no multiple of 4 is not admitted. -/
def Obligations.ReservedReadsZeroIgnoresWrites : Prop :=
  (∀ (s : State) (off : Nat) (v : Word), 0x1C ≤ off → off < 0x100 → off % 4 = 0 →
      readOffset s off = 0 ∧ step (s.withEvent (wordWrite off v)) = .next s)
    ∧ (∀ s : State, (readOffset s 0x00).extractLsb' 5 27 = 0 ∧ (readOffset s 0x04).extractLsb' 3 29 = 0
      ∧ (readOffset s 0x18).extractLsb' 4 4 = 0 ∧ (readOffset s 0x18).extractLsb' 12 20 = 0)
    ∧ (∀ (s : State) (v : Word), step (s.withEvent (wordWrite 0x00 v)) = .next s)
    ∧ (∀ (s : State) (v w : Word), v.extractLsb' 0 3 = w.extractLsb' 0 3 →
      step (s.withEvent (wordWrite 0x04 v)) = step (s.withEvent (wordWrite 0x04 w)))
    ∧ (∀ (s : State) (v w : Word), v.extractLsb' 1 3 = w.extractLsb' 1 3 →
      step (s.withEvent (wordWrite 0x18 v)) = step (s.withEvent (wordWrite 0x18 w)))
    ∧ ∀ (s : State) (off : Nat) (w : AccessWidth) (v : Word), off < 0x100 → (w ≠ .word ∨ off % 4 ≠ 0) →
      step (s.withEvent (.regWrite (.offset off) w v)) = .refused .registerAccessForm
        ∧ step (s.withEvent (.regRead (.offset off) w)) = .refused .registerAccessForm

/-- R35: in the window, a register access that is not an aligned 32-bit one is refused, and an aligned 32-bit one is
not. -/
def Obligations.MisformedRegisterAccessRefused : Prop :=
  ∀ (s : State) (off : Nat) (w : AccessWidth) (v : Word), off < 0x100 →
    (w ≠ .word ∨ off % 4 ≠ 0 →
      step (s.withEvent (.regWrite (.offset off) w v)) = .refused .registerAccessForm
        ∧ step (s.withEvent (.regRead (.offset off) w)) = .refused .registerAccessForm)
    ∧ (w = .word → off % 4 = 0 →
      step (s.withEvent (.regWrite (.offset off) w v)) ≠ .refused .registerAccessForm
        ∧ step (s.withEvent (.regRead (.offset off) w)) ≠ .refused .registerAccessForm)

/-- R20: the window is the 0x100 bytes at REG_BASE. Two clauses are the model's own (log 12): an access that takes no byte
of the window does nothing to the block; one that starts below the window and reaches into it is refused as one that
R35 does not admit. -/
def Obligations.WindowStandsAtRegBase : Prop :=
  ∀ (s : State) (w : AccessWidth) (v : Word),
    (∀ o, o < 0x100 →
      step (s.withEvent (.regWrite (.absolute (s.platform.regBase + o)) w v))
          = step (s.withEvent (.regWrite (.offset o) w v))
        ∧ step (s.withEvent (.regRead (.absolute (s.platform.regBase + o)) w))
          = step (s.withEvent (.regRead (.offset o) w)))
    ∧ (∀ a, (a + w.bytes ≤ s.platform.regBase ∨ s.platform.regBase + 0x100 ≤ a) →
      step (s.withEvent (.regWrite (.absolute a) w v)) = .next s
        ∧ step (s.withEvent (.regRead (.absolute a) w)) = .next s)
    ∧ ∀ a, (a < s.platform.regBase ∧ s.platform.regBase < a + w.bytes) →
      step (s.withEvent (.regWrite (.absolute a) w v)) = .refused .registerAccessForm
        ∧ step (s.withEvent (.regRead (.absolute a) w)) = .refused .registerAccessForm

/-- R24 to R26, R22, 41_row_driver.md R147: no step changes CTRL, SRC, DST or WIDTH but the host's write of that register
while BUSY = 0, and reset; so no command and no step of the engine does. -/
def Obligations.RegistersChangeOnlyByWritesOrReset : Prop :=
  ∀ s t : State, step s = .next t →
    (t.src = s.src ∨ (s.busy = false ∧ NextWrites s 0x08 t.src) ∨ (NextResets s ∧ t.src = 0))
    ∧ (t.dst = s.dst ∨ (s.busy = false ∧ NextWrites s 0x0C t.dst) ∨ (NextResets s ∧ t.dst = 0))
    ∧ (t.width = s.width ∨ (s.busy = false ∧ NextWrites s 0x10 t.width) ∨ (NextResets s ∧ t.width = 0))
    ∧ (t.bsz = s.bsz ∨ (s.busy = false ∧ ∃ v, NextWrites s 0x04 v ∧ t.bsz = legalCode s.platform (requestedCode v))
      ∨ (NextResets s ∧ t.bsz = 0))

/-- R28, R37: what sets and what clears each bit of STATUS, over every step. BUSY rises only by a CMD write and falls
only by completion, BusFault or reset; DONE rises only by completion; ERR rises only by a CMD write or BusFault; DROP
rises only by a write that is dropped; DONE, ERR and DROP fall only by their W1C bit, by reset, and DONE also by a CMD
write that is not dropped. -/
def Obligations.StatusBitsChangeOnlyAsTabled : Prop :=
  ∀ s t : State, Inv s → step s = .next t →
    (s.busy = false → t.busy = true → ∃ v i, NextWrites s 0x14 v ∧ decode v = .ok i ∧ TakesCommands s)
    ∧ (s.busy = true → t.busy = false →
      (t.doneFlag = true ∧ t.error = none) ∨ (t.doneFlag = false ∧ t.error = some .busFault) ∨ NextResets s)
    ∧ (s.doneFlag = false → t.doneFlag = true → s.busy = true ∧ t.busy = false)
    ∧ (s.doneFlag = true → t.doneFlag = false → (∃ v, NextWrites s 0x14 v ∧ TakesCommands s)
      ∨ (∃ v, NextWrites s 0x18 v ∧ v.getLsbD 1 = true) ∨ NextResets s)
    ∧ (∀ e, t.error = some e → s.error = some e ∨ (s.error = none ∧
      ((e ≠ .busFault ∧ ∃ v, NextWrites s 0x14 v ∧ TakesCommands s)
        ∨ (e = .busFault ∧ s.busy = true ∧ t.busy = false))))
    ∧ (s.error.isSome = true → t.error = none → (∃ v, NextWrites s 0x18 v ∧ v.getLsbD 2 = true) ∨ NextResets s)
    ∧ (s.drop = false → t.drop = true → ∃ off v, NextWrites s off v
      ∧ ((s.busy = true ∧ off ∈ [0x04, 0x08, 0x0C, 0x10, 0x14]) ∨ (s.error.isSome = true ∧ off = 0x14)))
    ∧ (s.drop = true → t.drop = false → (∃ v, NextWrites s 0x18 v ∧ v.getLsbD 3 = true) ∨ NextResets s)

/-! ### The datapath -/

/-- 40_pixelblock_transform.md R101, R103: the 16-bit lane computes the exact formula. -/
def Obligations.LumaIsTheExactFormula : Prop :=
  ∀ b g r : Byte,
    (accumulate b g r).toNat = 77 * r.toNat + 150 * g.toNat + 29 * b.toNat + 128
    ∧ (luma b g r).toNat = min 255 ((77 * r.toNat + 150 * g.toNat + 29 * b.toNat + 128) >>> 8)

/-- R102: the accumulator's range, the clamp that never fires, gray inputs as fixed points, and monotonicity. -/
def Obligations.LumaRangeFacts : Prop :=
  (∀ b g r : Byte, 128 ≤ (accumulate b g r).toNat ∧ (accumulate b g r).toNat ≤ 65408
    ∧ (accumulate b g r).toNat >>> 8 ≤ 255)
    ∧ (accumulate 255 255 255).toNat = 65408 ∧ (accumulate 0 0 0).toNat = 128
    ∧ (∀ v : Byte, luma v v v = v)
    ∧ ∀ b b' g g' r r' : Byte, b.toNat ≤ b'.toNat → g.toNat ≤ g'.toNat → r.toNat ≤ r'.toNat →
      (luma b g r).toNat ≤ (luma b' g' r').toNat

/-- R106: a lane's four output bytes depend only on its own blue, green and red bytes: not on its alpha, the other lanes,
the lane's index or the number of lanes. -/
def Obligations.LanesAreIndependent : Prop :=
  ∀ (x y : List Byte) (b b' j j' : Nat), j < b → j' < b' →
    (∀ k, k < 3 → x.getD (4 * j + k) 0 = y.getD (4 * j' + k) 0) →
    ((transformBlock b x).drop (4 * j)).take 4 = ((transformBlock b' y).drop (4 * j')).take 4

/-- R112, with R107 and R109: alpha is 0xFF, the channels are equal, P is idempotent, and lane j of a block is P of
pixel j, with difference 0. -/
def Obligations.TransformProperties : Prop :=
  (∀ p : Pixel, p.transform.a = 0xFF ∧ p.transform.b = p.transform.g ∧ p.transform.g = p.transform.r
    ∧ p.transform.transform = p.transform)
    ∧ ∀ (x : List Byte) (b j : Nat), j < b →
      ((transformBlock b x).drop (4 * j)).take 4 = (lanePixel x j).transform.bytes

/-! ### Encoding -/

/-- 30_encoding.md R85, with R83 and 60_exceptions.md R171: the decoder's verdict on each of the 2^32 words; and a CMD
write that is not dropped, of any word that is no command, raises IllegalCommand, whatever the operands, and does
nothing else but clear DONE. -/
def Obligations.DecodeVerdicts : Prop :=
  ∀ v : Word,
    (v = 0x00000001 → decode v = .ok .pixel) ∧ (v = 0x00000002 → decode v = .ok .block)
    ∧ (v = 0x00000003 → decode v = .ok .row)
    ∧ (v ≠ 0x00000001 → v ≠ 0x00000002 → v ≠ 0x00000003 → (∃ e, decode v = .error e)
      ∧ ∀ s : State, TakesCommands s →
        step (s.withEvent (wordWrite 0x14 v)) = .next { s with doneFlag := false, error := some .illegalCommand })

/-- R81, R88: decoding and encoding agree in both directions: the word of a command decodes to it, and no other word
does. -/
def Obligations.DecodeIffEncode : Prop :=
  ∀ (v : Word) (i : Instr), decode v = .ok i ↔ v = encode i

/-- R81, R88: words written out from the table, and reserved words with the name of what is wrong. -/
def Obligations.SampleWordsDecode : Prop :=
  decode 0b00000000000000000000000000000001 = .ok .pixel
    ∧ decode 0b00000000000000000000000000000010 = .ok .block
    ∧ decode 0b00000000000000000000000000000011 = .ok .row
    ∧ decode 0x00000000 = .error (.reservedOp 0x0) ∧ decode 0x00000004 = .error (.reservedOp 0x4)
    ∧ decode 0x0000000F = .error (.reservedOp 0xF) ∧ decode 0x00000013 = .error (.reservedBits 0x1)
    ∧ decode 0x80000003 = .error (.reservedBits 0x8000000)

/-- R84: the block sizes. -/
def Obligations.BlockSizeTable : Prop :=
  blockSize 0 = 1 ∧ blockSize 1 = 4 ∧ blockSize 2 = 8 ∧ blockSize 3 = 16 ∧ blockSize 4 = 32

/-- R86 (with R85): when the host's next event writes to CMD a word that decodes to `i`, the step is `exec i` of the
machine without that event; a word that is no command is a rejected request; and no command is accepted in any other
step: BUSY rises only in a step that is `exec i` of such a write. -/
def Obligations.StepRunsDecodedCommand : Prop :=
  (∀ (s : State) (v : Word) (i : Instr), decode v = .ok i → step (s.withEvent (wordWrite 0x14 v)) = exec i s)
    ∧ (∀ (s : State) (i : Instr), step (s.withFetchWord 32 (encode i).toNat) = exec i s)
    ∧ (∀ (s : State) (v : Word) (e : DecodeError), decode v = .error e →
      step (s.withEvent (wordWrite 0x14 v)) = rejectCommand s)
    ∧ ∀ s t : State, step s = .next t → s.busy = false → t.busy = true →
      ∃ v i, NextWrites s 0x14 v ∧ decode v = .ok i ∧ exec i { s with events := s.events.tail } = .next t

/-! ### Command requests and errors -/

/-- R86, R171 to R174, in the order of R175: what a CMD write does, in every case. The accepted command is stated for
extents on ordinary memory (on side-effecting memory: `SideEffectingExtentRefused`). -/
def Obligations.CmdWriteFollowsTheChecks : Prop :=
  ∀ (s : State) (v : Word),
    let asked : Option (Instr × Nat) :=
      if v = 1 then some (.pixel, 1)
      else if v = 2 then some (.block, if s.bsz = 0 then 1 else 2 ^ (s.bsz.val + 1))
      else if v = 3 then some (.row, s.width.toNat)
      else none
    let after := step (s.withEvent (wordWrite 0x14 v))
    if s.busy then after = .next { s with drop := true }
    else if s.error.isSome then after = .next { s with drop := true }
    else match asked with
      | none => after = .next { s with doneFlag := false, error := some .illegalCommand }
      | some (i, n) =>
        if i = .row ∧ n = 0 then after = .next { s with doneFlag := false, error := some .zeroWidth }
        else if s.src.toNat + 4 * n > 2 ^ 32 ∨ s.dst.toNat + 4 * n > 2 ^ 32 then
          after = .next { s with doneFlag := false, error := some .range }
        else if s.src.toNat < s.dst.toNat + 4 * n ∧ s.dst.toNat < s.src.toNat + 4 * n then
          after = .next { s with doneFlag := false, error := some .overlap }
        else ExtentsOrdinary s.platform s.src.toNat s.dst.toNat n →
          after = .next { s with
            doneFlag := false
            engine := some {
              cmd := { op := i, src := s.src, dst := s.dst, count := n, code := s.bsz }
              before := s.mem, done := [], hostWrites := [] } }

/-- 60_exceptions.md R177: a command request that ends with an error changes nothing but DONE, ERR and ERRCODE; and
BusFault is not among the errors of a request. -/
def Obligations.RequestErrorsArePrecise : Prop :=
  ∀ (s t : State) (v : Word) (e : ErrorKind), TakesCommands s →
    step (s.withEvent (wordWrite 0x14 v)) = .next t → t.error = some e →
    t = { s with doneFlag := false, error := some e } ∧ e ≠ .busFault

/-- R180: while ERR = 1, every CMD write is dropped and nothing else happens (ERRCODE keeps the first error); and, while
BUSY = 0, writes to CTRL, SRC, DST and WIDTH are taken. -/
def Obligations.PendingErrorBlocksCommands : Prop :=
  ∀ (s : State) (v : Word), s.error.isSome = true →
    step (s.withEvent (wordWrite 0x14 v)) = .next { s with drop := true }
    ∧ (s.busy = false →
      (NextWith (step (s.withEvent (wordWrite 0x04 v))) fun t => t = { s with bsz := t.bsz }
        ∧ t.bsz = legalCode s.platform (requestedCode v))
      ∧ step (s.withEvent (wordWrite 0x08 v)) = .next { s with src := v }
      ∧ step (s.withEvent (wordWrite 0x0C v)) = .next { s with dst := v }
      ∧ step (s.withEvent (wordWrite 0x10 v)) = .next { s with width := v })

/-- R179: writing 1 to bit 2 of STATUS while ERR = 1 leaves the block IDLE with no error, ERRCODE 0, ready for the next
command, and restores nothing else. -/
def Obligations.AcknowledgeClearsError : Prop :=
  ∀ (s : State) (v : Word), Inv s → s.error.isSome = true → v.getLsbD 2 = true →
    NextWith (step (s.withEvent (wordWrite 0x18 v))) fun t =>
      t.error = none ∧ (statusWord t).extractLsb' 8 4 = 0 ∧ TakesCommands t ∧ RegsSame s t ∧ t.mem = s.mem
        ∧ HostSideSame s t

/-- 20_memory.md R59: a command that would be accepted is refused by the model when a byte of an extent has side
effects, and is not refused otherwise. -/
def Obligations.SideEffectingExtentRefused : Prop :=
  ∀ (i : Instr) (s : State), TakesCommands s → 0 < pixelCount i s →
    outOfRange s.src.toNat s.dst.toNat (pixelCount i s) = false →
    overlaps s.src.toNat s.dst.toNat (pixelCount i s) = false →
    (exec i s = .refused .sideEffectingExtent ↔
      ∃ j, j < 4 * pixelCount i s ∧ (sideEffecting s.platform (s.src.toNat + j) = true
        ∨ sideEffecting s.platform (s.dst.toNat + j) = true))

/-- R147, R86: the frame of PIXEL, BLOCK and ROW as requests: no register but STATUS, no byte of memory, nothing of the
host's side changes; DROP changes only for a request that is turned away. -/
def Obligations.CommandRequestFrame : Prop :=
  ∀ (i : Instr) (s t : State), exec i s = .next t →
    RegsSame s t ∧ MemSame s t ∧ HostSideSame s t ∧ t.draws = s.draws
      ∧ (TakesCommands s → t.drop = s.drop ∧ t.doneFlag = false)
      ∧ (¬ TakesCommands s → t = { s with drop := true })

/-! ### The split of a row -/

/-- 41_row_driver.md R141: the prefix is W & ~(B - 1) pixels, which is B * floor(W / B); its blocks tile it in order; and
block k covers the 4 B source bytes at S + 4 k B and the 4 B destination bytes at D + 4 k B. -/
def Obligations.PrefixIsWholeBlocks : Prop :=
  (∀ (n : Nat) (c : Fin 5), n < 2 ^ 32 →
    prefixPixels n (blockSize c) = (BitVec.ofNat 32 n &&& ~~~(BitVec.ofNat 32 (blockSize c - 1))).toNat
    ∧ prefixPixels n (blockSize c) = blockSize c * (n / blockSize c)
    ∧ (List.range (prefixPixels n (blockSize c) / blockSize c)).flatMap
        (fun k => (List.range (blockSize c)).map fun j => k * blockSize c + j)
      = List.range (prefixPixels n (blockSize c)))
    ∧ ∀ (c : Latched) (k : Nat),
      c.sourceAddr ((WorkUnit.block k).first c.lanes) = c.src.toNat + 4 * k * c.lanes
      ∧ c.destAddr ((WorkUnit.block k).first c.lanes) = c.dst.toNat + 4 * k * c.lanes
      ∧ (WorkUnit.block k).pixels c.lanes = c.lanes

/-- R143: the units of a command cover its pixel indices 0 .. n-1, each exactly once, in this order, and none reaches
past them; and no command that passes the checks has more than 2^29 pixels. -/
def Obligations.UnitsCoverEachPixelOnce : Prop :=
  (∀ c : Latched, c.units.flatMap (fun u => (List.range (u.pixels c.lanes)).map fun j => u.first c.lanes + j)
      = List.range c.count)
    ∧ (∀ (c : Latched) (u : WorkUnit), u ∈ c.units → u.first c.lanes + u.pixels c.lanes ≤ c.count)
    ∧ ∀ (i : Instr) (s : State), Acceptable i s → pixelCount i s ≤ 2 ^ 29

/-- R142, R144, R145: the remainder is the W & (B - 1) pixels from nb on, fewer than B, each by the scalar unit, which
computes P; with B = 1 the remainder is empty and a block is what the scalar unit does; with W < B there is no block. -/
def Obligations.RemainderIsScalar : Prop :=
  (∀ (n : Nat) (c : Fin 5), n < 2 ^ 32 →
    (splitUnits n (blockSize c)).filter WorkUnit.isScalar
      = (List.range (n % blockSize c)).map fun j => .scalar (prefixPixels n (blockSize c) + j))
    ∧ (∀ (n : Nat) (c : Fin 5), n % blockSize c = n &&& (blockSize c - 1) ∧ n % blockSize c < blockSize c)
    ∧ (∀ (b i : Nat) (x : List Byte), (WorkUnit.scalar i).output b x = (lanePixel x 0).transform.bytes)
    ∧ (∀ n, n < 2 ^ 32 → splitUnits n 1 = (List.range n).map .block)
    ∧ (∀ (k i : Nat) (x : List Byte), (WorkUnit.block k).output 1 x = (WorkUnit.scalar i).output 1 x)
    ∧ ∀ (n : Nat) (c : Fin 5), n < blockSize c → splitUnits n (blockSize c) = (List.range n).map .scalar

/-- R148: the worked split counts. -/
def Obligations.WorkedSplitCounts : Prop :=
  (prefixPixels 1281 16, prefixPixels 1281 16 / 16, 1281 - prefixPixels 1281 16) = (1280, 80, 1)
    ∧ (prefixPixels 17 16, prefixPixels 17 16 / 16, 17 - prefixPixels 17 16) = (16, 1, 1)
    ∧ (prefixPixels 17 32, prefixPixels 17 32 / 32, 17 - prefixPixels 17 32) = (0, 0, 17)
    ∧ (prefixPixels 17 1, prefixPixels 17 1 / 1, 17 - prefixPixels 17 1) = (17, 17, 0)
    ∧ (prefixPixels 16 16, prefixPixels 16 16 / 16, 16 - prefixPixels 16 16) = (16, 1, 0)
    ∧ (prefixPixels 15 16, prefixPixels 15 16 / 16, 15 - prefixPixels 15 16) = (0, 0, 15)
    ∧ (prefixPixels 100 8, prefixPixels 100 8 / 8, 100 - prefixPixels 100 8) = (96, 12, 4)
    ∧ (prefixPixels 100 4, prefixPixels 100 4 / 4, 100 - prefixPixels 100 4) = (100, 25, 0)

/-! ### The engine -/

/-- 20_memory.md R56, 10_state.md R24 to R26, 41_row_driver.md R147: the frame of every step of the engine: no register
but STATUS and no byte outside the destination extent of its command changes. -/
def Obligations.EngineStepFrame : Prop :=
  ∀ (k : Nat) (s t : State), engineStep k s = .next t →
    RegsSame s t ∧ t.drop = s.drop ∧ t.events = s.events ∧ t.readouts = s.readouts ∧ t.racy = s.racy
      ∧ t.resetCut = s.resetCut ∧ t.stopped = s.stopped
      ∧ ∀ a, (∀ r, s.engine = some r → r.cmd.inDest a = false) → readByte t.mem a = readByte s.mem a

/-- 60_exceptions.md R176: when the port does not admit a byte of the engine's next unit, the step sets BUSY <- 0,
ERR <- 1, ERRCODE <- 5 with DONE = 0; each admitted byte of the destination extent holds its value before the command or
its final value, and no other byte and no register changes. That a transaction is one unit is the model's choice
(log 6); that the destination bytes which are NOT admitted are unchanged too is its inference (log 7). -/
def Obligations.BusFaultStops : Prop :=
  ∀ (s : State) (r : Running) (u : WorkUnit) (k : Nat), Inv s → DataOk s → s.engine = some r → r.hostWrites = [] →
    r.nextUnit k = some u → unitAdmitted s.platform r.cmd u = false →
    NextWith (engineStep k s) fun t =>
      t.busy = false ∧ t.error = some .busFault ∧ t.doneFlag = false ∧ statusWord t = (if s.drop then 0x50C else 0x504)
        ∧ RegsSame s t
        ∧ (∀ a, r.cmd.inDest a = true → admits s.platform a = true →
            readByte t.mem a = readByte r.before a ∨ readByte t.mem a = finalByte r.cmd r.before a)
        ∧ ∀ a, (r.cmd.inDest a && admits s.platform a) = false → readByte t.mem a = readByte s.mem a

/-- 30_encoding.md R87, 70_reset_and_hazards.md R210: when done_set holds every index, the engine's next step sets
BUSY <- 0 and DONE <- 1 together; and from every state of the invariant in which a command runs, whatever the engine
chooses and whatever the host does among its steps (racing accesses too, but no reset and no access the model refuses),
the command completes or ends in BusFault after finitely many steps. -/
def Obligations.RunningCommandEnds : Prop :=
  (∀ (s : State) (r : Running) (k : Nat), s.engine = some r → (∀ i, i < r.cmd.count → r.isDone i = true) →
      NextWith (engineStep k s) fun t => t.busy = false ∧ t.doneFlag = true ∧ t.error = s.error)
    ∧ ∀ s : State, Inv s → s.busy = true → HostOrderly s →
      ∃ k t, runSteps k s = .next t ∧ t.busy = false
        ∧ (t.doneFlag = true ∧ t.error = none ∨ t.doneFlag = false ∧ t.error = some .busFault)

/-- 20_memory.md R57, R62, 41_row_driver.md R146: at the completion of a command that the host has not raced, in
whatever order its units were done and whatever the host did elsewhere meanwhile, every destination byte is the final
value for memory at acceptance, and no other byte changes in that step. -/
def Obligations.CompletedCommandHoldsFinalValues : Prop :=
  ∀ (s : State) (r : Running) (k : Nat), Inv s → DataOk s → s.engine = some r → r.hostWrites = [] →
    r.pending = [] → NextWith (engineStep k s) fun t =>
      t.busy = false ∧ t.doneFlag = true
        ∧ (∀ a, r.cmd.inDest a = true → readByte t.mem a = finalByte r.cmd r.before a)
        ∧ ∀ a, r.cmd.inDest a = false → readByte t.mem a = readByte s.mem a

/-- 40_pixelblock_transform.md R110: PIXEL completes. From every state in which its checks pass and its bytes are
admitted, the request is accepted and, whatever the engine chooses and whatever accesses the quiet host makes, the
command ends with DONE and with the one destination pixel P of the source pixel. -/
def Obligations.PixelConvertsOnePixel : Prop :=
  ∀ s : State, Inv s → Acceptable .pixel s → HostQuiet s →
    ExtentsAdmitted s.platform s.src.toNat s.dst.toNat 1 →
    NextWith (exec .pixel s) fun t => t.busy = true ∧ t.doneFlag = false ∧
      ∃ k u, runSteps k t = .next u ∧ u.busy = false ∧ u.doneFlag = true ∧ u.error = none
        ∧ Converted s.mem s.src.toNat s.dst.toNat 1 u.mem ∧ RegsSame s u

/-- R111: BLOCK completes, and converts its B = Bsize(CTRL.BSZ) pixels, whatever WIDTH holds. -/
def Obligations.BlockConvertsItsLanes : Prop :=
  ∀ s : State, Inv s → Acceptable .block s → HostQuiet s →
    ExtentsAdmitted s.platform s.src.toNat s.dst.toNat (blockSize s.bsz) →
    NextWith (exec .block s) fun t => t.busy = true ∧ t.doneFlag = false ∧
      ∃ k u, runSteps k t = .next u ∧ u.busy = false ∧ u.doneFlag = true ∧ u.error = none
        ∧ Converted s.mem s.src.toNat s.dst.toNat (blockSize s.bsz) u.mem ∧ RegsSame s u

/-- 41_row_driver.md R140, R146: ROW completes, and converts its WIDTH pixels, whatever CTRL.BSZ is and in whatever
order the engine does the blocks and the remainder. -/
def Obligations.RowConvertsItsPixels : Prop :=
  ∀ s : State, Inv s → Acceptable .row s → HostQuiet s →
    ExtentsAdmitted s.platform s.src.toNat s.dst.toNat s.width.toNat →
    NextWith (exec .row s) fun t => t.busy = true ∧ t.doneFlag = false ∧
      ∃ k u, runSteps k t = .next u ∧ u.busy = false ∧ u.doneFlag = true ∧ u.error = none
        ∧ Converted s.mem s.src.toNat s.dst.toNat s.width.toNat u.mem ∧ RegsSame s u

/-- R146, 40_pixelblock_transform.md R109: the memory a ROW leaves does not depend on CTRL.BSZ. -/
def Obligations.RowDoesNotDependOnBlockSize : Prop :=
  ∀ (s : State) (c : Fin 5), Inv s → supports s.platform c = true → Acceptable .row s → HostQuiet s →
    ExtentsAdmitted s.platform s.src.toNat s.dst.toNat s.width.toNat →
    ∃ t t' k k' u u', exec .row s = .next t ∧ exec .row { s with bsz := c } = .next t'
      ∧ runSteps k t = .next u ∧ runSteps k' t' = .next u' ∧ u.doneFlag = true ∧ u'.doneFlag = true
      ∧ MemSame u u'

/-! ### The host's memory accesses and races -/

/-- 20_memory.md R56, R60: over every step, a byte of data memory changes only by the host's own write of that byte or,
in the destination extent of the running command, by the engine (a reset that cuts the command short included, R202).
So no other byte is ever touched by the block. -/
def Obligations.MemoryChangesOnlyWhereAllowed : Prop :=
  ∀ (s t : State) (a : Nat), step s = .next t → readByte t.mem a ≠ readByte s.mem a →
    (∃ v addr rest, s.events = .memWrite addr v :: rest ∧ addr.toNat = a)
    ∨ ∃ r, s.engine = some r ∧ r.cmd.inDest a = true

/-- 20_memory.md R50, R67, 70_reset_and_hazards.md R206: a host access that is no race is a plain access to one byte
array, at any time. While a command runs that is a read of a byte outside its destination extent (its source extent
included) and a write of a byte outside both; of an ended command, the same until a read of STATUS with BUSY = 0; and no
byte that an ended command wrote while the host may not use its results (`StatusReadObservesCompletion`). That every
ordinary byte, whether or not the memory port admits it, is one the host reads and writes is the model's choice (log 15). -/
def Obligations.HostMemoryAccessesArePlain : Prop :=
  ∀ (s : State) (a : Addr) (v : Byte), sideEffecting s.platform a.toNat = false → memoryWf s.mem = true →
    (PlainToWrite s a.toNat → NextWith (step (s.withEvent (.memWrite a v))) fun t =>
      (∀ b, readByte t.mem b = if b = a.toNat then v else readByte s.mem b) ∧ RegsSame s t ∧ FlagsSame s t
        ∧ t.engine = s.engine ∧ HostSideSame s t)
    ∧ (PlainToRead s a.toNat → NextWith (step (s.withEvent (.memRead a))) fun t =>
      t.readouts = .memory a (readByte s.mem a.toNat) :: s.readouts ∧ t.mem = s.mem ∧ RegsSame s t ∧ FlagsSame s t
        ∧ t.engine = s.engine ∧ HostSideSame s { t with readouts := s.readouts })

/-- R64: while BUSY = 1, a host read of a destination byte returns its value before the command or its final value; a
host write to a source byte lets each later engine read of it return the old or the new value; a destination byte the
host wrote once holds, at completion, the host's value or the engine's; and each such access marks the run racy. Where an
ended command wrote the byte too and the host may not use its results yet (R206, R207), a read may also return the byte's
value before that command, and a write that is a race with it may also leave what memory held (log 9). -/
def Obligations.RacesHaveTheStatedValueSets : Prop :=
  ∀ (s : State) (r : Running) (a : Addr) (v : Byte), Inv s → DataOk s → s.engine = some r →
    sideEffecting s.platform a.toNat = false →
    (r.hostWrites = [] → r.cmd.inDest a.toNat = true → NextWith (step (s.withEvent (.memRead a))) fun t =>
      t.racy = true ∧ ∃ x, t.readouts = .memory a x :: s.readouts
        ∧ (x = readByte r.before a.toNat ∨ x = finalByte r.cmd r.before a.toNat
          ∨ ∃ f ∈ s.unobserved, f.cmd.inDest a.toNat = true ∧ x = readByte f.before a.toNat))
    ∧ (r.hostWrites = [] → r.cmd.inSource a.toNat = true → NextWith (step (s.withEvent (.memWrite a v))) fun t =>
      t.racy = true ∧ ∃ q, t.engine = some q ∧ q.cmd = r.cmd ∧ q.done = r.done
        ∧ ∀ k, t.sourceByte q k a.toNat = readByte s.mem a.toNat ∨ t.sourceByte q k a.toNat = v)
    ∧ (r.hostWrites = [] → r.cmd.inDest a.toNat = true → NextWith (step (s.withEvent (.memWrite a v))) fun t =>
      t.racy = true ∧ ∃ q w, t.engine = some q ∧ q.cmd = r.cmd ∧ q.done = r.done ∧ q.hostWrites = [(a.toNat, w)]
        ∧ (w = v ∨ (w = readByte s.mem a.toNat
          ∧ ∃ f ∈ s.unobserved, f.released = false ∧ f.cmd.inDest a.toNat = true)))
    ∧ (r.hostWrites = [(a.toNat, v)] → r.cmd.inDest a.toNat = true → r.pending = [] → ∀ k,
      NextWith (engineStep k s) fun t =>
        readByte t.mem a.toNat = v ∨ readByte t.mem a.toNat = finalByte r.cmd r.before a.toNat)

/-- R63 item 2, 70_reset_and_hazards.md R206, R207. While no command runs: after a read of STATUS with DONE = 1, a host
read of any ordinary byte is no race and returns what memory holds; after a read of STATUS with DONE = 0, the host's
accesses are no races (R206), a read returns what memory holds or the byte's value before an ended command that wrote it
(R207 promises no more), and a write settles the byte. At any time, a later command running or not: before any such read of STATUS, a host read of an
ended command's destination, and a host write to its destination or its source, are races; a read returns one of the same
two values, and a write leaves the host's value or what memory held in the destination, the host's value elsewhere. After
such a read, whatever DONE was, they are no races, save in the extents of the running command (in its destination:
`RacesHaveTheStatedValueSets`). The marks and these sets are the model's (log 9); that a byte the memory port does not
admit is written and read back like any other is too (log 15). -/
def Obligations.StatusReadObservesCompletion : Prop :=
  ∀ (s : State) (a : Addr) (v : Byte), memoryWf s.mem = true → sideEffecting s.platform a.toNat = false →
    (s.busy = false → s.doneFlag = true → NextWith (step (s.withEvent (wordRead 0x18))) fun t =>
      t.unobserved = [] ∧ t.mem = s.mem ∧ t.racy = s.racy
      ∧ NextWith (step (t.withEvent (.memRead a))) fun u =>
        u.racy = s.racy ∧ u.readouts = .memory a (readByte s.mem a.toNat) :: t.readouts)
    ∧ (s.busy = false → s.doneFlag = false → NextWith (step (s.withEvent (wordRead 0x18))) fun t =>
      t.mem = s.mem ∧ t.racy = s.racy
      ∧ (NextWith (step (t.withEvent (.memRead a))) fun u =>
        u.racy = s.racy ∧ ∃ x, u.readouts = .memory a x :: t.readouts
          ∧ (x = readByte s.mem a.toNat
            ∨ ∃ f ∈ s.unobserved, f.cmd.inDest a.toNat = true ∧ x = readByte f.before a.toNat))
      ∧ NextWith (step (t.withEvent (.memWrite a v))) fun u =>
        u.racy = s.racy ∧ readByte u.mem a.toNat = v
        ∧ NextWith (step (u.withEvent (.memRead a))) fun w =>
          w.racy = s.racy ∧ w.readouts = .memory a v :: u.readouts)
    ∧ ((∃ f ∈ s.unobserved, f.released = false ∧ f.cmd.inDest a.toNat = true) →
      (NextWith (step (s.withEvent (.memRead a))) fun t => t.racy = true
        ∧ ((∀ r, s.engine = some r → r.cmd.inDest a.toNat = false) → ∃ x, t.readouts = .memory a x :: s.readouts
          ∧ (x = readByte s.mem a.toNat
            ∨ ∃ f ∈ s.unobserved, f.cmd.inDest a.toNat = true ∧ x = readByte f.before a.toNat)))
      ∧ NextWith (step (s.withEvent (.memWrite a v))) fun t =>
        t.racy = true ∧ (readByte t.mem a.toNat = v ∨ readByte t.mem a.toNat = readByte s.mem a.toNat))
    ∧ ((∃ f ∈ s.unobserved, f.released = false ∧ f.cmd.inSource a.toNat = true)
        → (∀ f ∈ s.unobserved, f.cmd.inDest a.toNat = false) →
      NextWith (step (s.withEvent (.memWrite a v))) fun t =>
        t.racy = true ∧ ∀ b, readByte t.mem b = if b = a.toNat then v else readByte s.mem b)
    ∧ ((∀ f ∈ s.unobserved, f.released = true ∨ f.cmd.inDest a.toNat = false) →
        (∀ r, s.engine = some r → r.cmd.inDest a.toNat = false) →
      (NextWith (step (s.withEvent (.memRead a))) fun t => t.racy = s.racy
        ∧ ∃ x, t.readouts = .memory a x :: s.readouts
          ∧ (x = readByte s.mem a.toNat
            ∨ ∃ f ∈ s.unobserved, f.cmd.inDest a.toNat = true ∧ x = readByte f.before a.toNat))
      ∧ ((∀ f ∈ s.unobserved, f.released = true ∨ f.cmd.inSource a.toNat = false) →
          (∀ r, s.engine = some r → r.cmd.inSource a.toNat = false) →
        NextWith (step (s.withEvent (.memWrite a v))) fun t =>
          t.racy = s.racy ∧ t.engine = s.engine ∧ readByte t.mem a.toNat = v
          ∧ NextWith (step (t.withEvent (.memRead a))) fun u =>
            u.racy = s.racy ∧ u.readouts = .memory a v :: t.readouts))

/-! ### The machine -/

/-- The invariant holds after reset. -/
def Obligations.InvariantHoldsAtReset : Prop :=
  Inv State.reset ∧ DataOk State.reset

/-- Every step keeps the invariant of the registers, the memory's form and the running command: among it that BUSY and
DONE, and ERR and DONE, are never both 1 (10_state.md R28), that CTRL.BSZ is a supported code (R22), that the latched
command equals the live registers (R31), and that no command runs while an error is pending (60_exceptions.md R180). -/
def Obligations.StepKeepsInvariant : Prop :=
  ∀ s t : State, Inv s → step s = .next t → Inv t

/-- Every step keeps the running command's data right on the bytes the host has not raced (20_memory.md R57, R61,
R62). -/
def Obligations.StepKeepsCommandData : Prop :=
  ∀ s t : State, Inv s → DataOk s → step s = .next t → DataOk t

/-- No step from a state of the invariant stops with a fault: the errors of the block are STATUS updates (R178). -/
def Obligations.StepNeverFaults : Prop :=
  ∀ s : State, Inv s → ∀ f, step s ≠ .fault f

/-- A step is refused only where the spec says a model refuses: a register access that takes a byte of the window and is
not an aligned 32-bit one of it (R35; one that starts below the window: log 12), a CMD write, not dropped, of a command
with an extent on side-effecting memory (R59), and a host access to such memory (log 14). -/
def Obligations.RefusalsAreOnlyTheNamedOnes : Prop :=
  ∀ (s : State) (x : Refusal), step s = .refused x →
    ∃ e rest, s.events = e :: rest ∧
      ((x = .registerAccessForm ∧ ∃ p w, ((∃ v, e = .regWrite p w v) ∨ e = .regRead p w)
          ∧ ((∃ off, windowOffset s.platform p = some off ∧ (w ≠ .word ∨ off % 4 ≠ 0))
            ∨ ∃ a, p = .absolute a ∧ a < s.platform.regBase ∧ s.platform.regBase < a + w.bytes))
        ∨ (x = .sideEffectingExtent ∧ ∃ v i, NextWrites s 0x14 v ∧ TakesCommands s ∧ decode v = .ok i
            ∧ ¬ ExtentsOrdinary s.platform s.src.toNat s.dst.toNat (pixelCount i s))
        ∨ (x = .sideEffectingAccess ∧ ∃ a : Addr, sideEffecting s.platform a.toNat = true
            ∧ (e = .memRead a ∨ ∃ v, e = .memWrite a v)))

/-- R64, R202, R212: the marks of a race and of a reset while BUSY stay, so that no later end of the run is good. The
third clause is the model's choice (log 23): R211 does not say what follows a `require` that fails, and the model has the
run marked as stopped for good, with no good end. -/
def Obligations.MarksAreNeverCleared : Prop :=
  ∀ s t : State, step s = .next t → (s.racy = true → t.racy = true) ∧ (s.resetCut = true → t.resetCut = true)
    ∧ (s.stopped = true → t.stopped = true)

/-- 30_encoding.md R90: `wait` ends, with one read of STATUS, when BUSY = 0; while BUSY = 1 it stays and the engine
moves (log 20). R203: with no event to come and no command running, nothing changes. -/
def Obligations.WaitPollsUntilIdle : Prop :=
  (∀ s : State, s.busy = false → step (s.withEvent .wait) = step (s.withEvent (wordRead 0x18)))
    ∧ (∀ s t : State, s.busy = true → step (s.withEvent .wait) = .next t →
      t.events = .wait :: s.events ∧ engineStep 0 (s.withEvent .wait) = .next t)
    ∧ ∀ s : State, s.events = [] → s.busy = false → step s = .next s

/-- R89, R90: the register accesses each line of a host program stands for. That `wait` is one event of its own is the
model's (log 20: `WaitPollsUntilIdle`). -/
def Obligations.HostAssemblerEncodings : Prop :=
  (∀ v, assembleOp (.wr .cap v) = [.regWrite (.offset 0x00) .word v]
      ∧ assembleOp (.wr .ctrl v) = [.regWrite (.offset 0x04) .word v]
      ∧ assembleOp (.wr .src v) = [.regWrite (.offset 0x08) .word v]
      ∧ assembleOp (.wr .dst v) = [.regWrite (.offset 0x0C) .word v]
      ∧ assembleOp (.wr .width v) = [.regWrite (.offset 0x10) .word v]
      ∧ assembleOp (.wr .cmd v) = [.regWrite (.offset 0x14) .word v]
      ∧ assembleOp (.wr .status v) = [.regWrite (.offset 0x18) .word v])
    ∧ (assembleOp (.rd .cap) = [.regRead (.offset 0x00) .word]
      ∧ assembleOp (.rd .ctrl) = [.regRead (.offset 0x04) .word]
      ∧ assembleOp (.rd .src) = [.regRead (.offset 0x08) .word]
      ∧ assembleOp (.rd .dst) = [.regRead (.offset 0x0C) .word]
      ∧ assembleOp (.rd .width) = [.regRead (.offset 0x10) .word]
      ∧ assembleOp (.rd .cmd) = [.regRead (.offset 0x14) .word]
      ∧ assembleOp (.rd .status) = [.regRead (.offset 0x18) .word])
    ∧ assembleOp .pixel = [.regWrite (.offset 0x14) .word 0x00000001]
    ∧ assembleOp .block = [.regWrite (.offset 0x14) .word 0x00000002]
    ∧ assembleOp .row = [.regWrite (.offset 0x14) .word 0x00000003]
    ∧ (∀ c, assembleOp (.setbsz c) = [.regWrite (.offset 0x04) .word c])
    ∧ (∀ a, assembleOp (.setsrc a) = [.regWrite (.offset 0x08) .word a])
    ∧ (∀ a, assembleOp (.setdst a) = [.regWrite (.offset 0x0C) .word a])
    ∧ (∀ n, assembleOp (.setw n) = [.regWrite (.offset 0x10) .word n])
    ∧ assembleOp .wait = [.wait]
    ∧ assembleOp .clrst = [.regWrite (.offset 0x18) .word 0x0000000E]
    ∧ (∀ s d, assembleOp (.xpixel s d) = [.regWrite (.offset 0x08) .word s, .regWrite (.offset 0x0C) .word d,
        .regWrite (.offset 0x14) .word 0x00000001, .wait])
    ∧ (∀ s d, assembleOp (.xblock s d) = [.regWrite (.offset 0x08) .word s, .regWrite (.offset 0x0C) .word d,
        .regWrite (.offset 0x14) .word 0x00000002, .wait])
    ∧ ∀ s d n, assembleOp (.xrow s d n) = [.regWrite (.offset 0x08) .word s, .regWrite (.offset 0x0C) .word d,
        .regWrite (.offset 0x10) .word n, .regWrite (.offset 0x14) .word 0x00000003, .wait]

/-- 70_reset_and_hazards.md R211: the host loop. It is refused exactly where its preconditions fail (width, height,
stride, whole buffers that overlap) or a row's address or the width does not fit a register; else it is one `xrow` per
row, in increasing order, each followed by its `require`. After a read of STATUS, as `wait` ends with, `require` goes on
when DONE = 1 and ERR = 0, and else stops the program: no host access is to come, and no later state is a good end. What
follows a `require` that fails (the host's events dropped, the run stopped with no good end) is the model's choice, as is
the refusal of an address or a width that fits no register (log 23). -/
def Obligations.HostLoopChecksEachRow : Prop :=
  (∀ src dst w h stride : Nat, convertImage src dst w h stride = none ↔
      (w = 0 ∨ h = 0 ∨ stride < 4 * w ∨ (src < dst + stride * h ∧ dst < src + stride * h) ∨ 2 ^ 32 ≤ w
        ∨ 2 ^ 32 ≤ src + (h - 1) * stride ∨ 2 ^ 32 ≤ dst + (h - 1) * stride))
    ∧ (∀ (src dst w h stride : Nat) (p : List HostOp), convertImage src dst w h stride = some p →
      p.length = 2 * h ∧ ∀ y, y < h →
        p[2 * y]? = some (.xrow (BitVec.ofNat 32 (src + y * stride)) (BitVec.ofNat 32 (dst + y * stride))
          (BitVec.ofNat 32 w))
        ∧ p[2 * y + 1]? = some .requireDone)
    ∧ ∀ s : State, NextWith (step (s.withEvent (wordRead 0x18))) fun t =>
      (s.doneFlag = true → s.error = none → step (t.withEvent .requireDone) = .next t)
      ∧ (s.doneFlag = false ∨ s.error.isSome = true →
        NextWith (step (t.withEvent .requireDone)) fun u =>
          u = { t with events := u.events, stopped := true } ∧ ¬ GoodEnd u
          ∧ ∀ e, e ∈ u.events ↔ e ∈ t.events ∧ e.isHost = false)
end

