-- ==== Sys2Proof/Laws/State.lean ====
section
/-! SUPPORT. One lemma per field per update of the state, true by unfolding, so that no later proof unfolds one. -/

namespace Sys2Proof.Machine

variable (s : State)

/-! The fields after recording an error (60_exceptions.md R177). -/

@[simp] theorem State.raise_platform (e : ErrorKind) : (s.raise e).platform = s.platform := rfl
@[simp] theorem State.raise_bsz (e : ErrorKind) : (s.raise e).bsz = s.bsz := rfl
@[simp] theorem State.raise_src (e : ErrorKind) : (s.raise e).src = s.src := rfl
@[simp] theorem State.raise_dst (e : ErrorKind) : (s.raise e).dst = s.dst := rfl
@[simp] theorem State.raise_width (e : ErrorKind) : (s.raise e).width = s.width := rfl
@[simp] theorem State.raise_doneFlag (e : ErrorKind) : (s.raise e).doneFlag = false := rfl
@[simp] theorem State.raise_error (e : ErrorKind) : (s.raise e).error = (some e) := rfl
@[simp] theorem State.raise_drop (e : ErrorKind) : (s.raise e).drop = s.drop := rfl
@[simp] theorem State.raise_engine (e : ErrorKind) : (s.raise e).engine = s.engine := rfl
@[simp] theorem State.raise_mem (e : ErrorKind) : (s.raise e).mem = s.mem := rfl
@[simp] theorem State.raise_events (e : ErrorKind) : (s.raise e).events = s.events := rfl
@[simp] theorem State.raise_readouts (e : ErrorKind) : (s.raise e).readouts = s.readouts := rfl
@[simp] theorem State.raise_unobserved (e : ErrorKind) : (s.raise e).unobserved = s.unobserved := rfl
@[simp] theorem State.raise_racy (e : ErrorKind) : (s.raise e).racy = s.racy := rfl
@[simp] theorem State.raise_resetCut (e : ErrorKind) : (s.raise e).resetCut = s.resetCut := rfl
@[simp] theorem State.raise_stopped (e : ErrorKind) : (s.raise e).stopped = s.stopped := rfl
@[simp] theorem State.raise_draws (e : ErrorKind) : (s.raise e).draws = s.draws := rfl

/-! The fields after acknowledging an error (R179). -/

@[simp] theorem State.acknowledge_platform : (s.acknowledge).platform = s.platform := rfl
@[simp] theorem State.acknowledge_bsz : (s.acknowledge).bsz = s.bsz := rfl
@[simp] theorem State.acknowledge_src : (s.acknowledge).src = s.src := rfl
@[simp] theorem State.acknowledge_dst : (s.acknowledge).dst = s.dst := rfl
@[simp] theorem State.acknowledge_width : (s.acknowledge).width = s.width := rfl
@[simp] theorem State.acknowledge_doneFlag : (s.acknowledge).doneFlag = s.doneFlag := rfl
@[simp] theorem State.acknowledge_error : (s.acknowledge).error = none := rfl
@[simp] theorem State.acknowledge_drop : (s.acknowledge).drop = s.drop := rfl
@[simp] theorem State.acknowledge_engine : (s.acknowledge).engine = s.engine := rfl
@[simp] theorem State.acknowledge_mem : (s.acknowledge).mem = s.mem := rfl
@[simp] theorem State.acknowledge_events : (s.acknowledge).events = s.events := rfl
@[simp] theorem State.acknowledge_readouts : (s.acknowledge).readouts = s.readouts := rfl
@[simp] theorem State.acknowledge_unobserved : (s.acknowledge).unobserved = s.unobserved := rfl
@[simp] theorem State.acknowledge_racy : (s.acknowledge).racy = s.racy := rfl
@[simp] theorem State.acknowledge_resetCut : (s.acknowledge).resetCut = s.resetCut := rfl
@[simp] theorem State.acknowledge_stopped : (s.acknowledge).stopped = s.stopped := rfl
@[simp] theorem State.acknowledge_draws : (s.acknowledge).draws = s.draws := rfl

/-! The fields after a dropped write (10_state.md R33). -/

@[simp] theorem State.dropWrite_platform : (s.dropWrite).platform = s.platform := rfl
@[simp] theorem State.dropWrite_bsz : (s.dropWrite).bsz = s.bsz := rfl
@[simp] theorem State.dropWrite_src : (s.dropWrite).src = s.src := rfl
@[simp] theorem State.dropWrite_dst : (s.dropWrite).dst = s.dst := rfl
@[simp] theorem State.dropWrite_width : (s.dropWrite).width = s.width := rfl
@[simp] theorem State.dropWrite_doneFlag : (s.dropWrite).doneFlag = s.doneFlag := rfl
@[simp] theorem State.dropWrite_error : (s.dropWrite).error = s.error := rfl
@[simp] theorem State.dropWrite_drop : (s.dropWrite).drop = true := rfl
@[simp] theorem State.dropWrite_engine : (s.dropWrite).engine = s.engine := rfl
@[simp] theorem State.dropWrite_mem : (s.dropWrite).mem = s.mem := rfl
@[simp] theorem State.dropWrite_events : (s.dropWrite).events = s.events := rfl
@[simp] theorem State.dropWrite_readouts : (s.dropWrite).readouts = s.readouts := rfl
@[simp] theorem State.dropWrite_unobserved : (s.dropWrite).unobserved = s.unobserved := rfl
@[simp] theorem State.dropWrite_racy : (s.dropWrite).racy = s.racy := rfl
@[simp] theorem State.dropWrite_resetCut : (s.dropWrite).resetCut = s.resetCut := rfl
@[simp] theorem State.dropWrite_stopped : (s.dropWrite).stopped = s.stopped := rfl
@[simp] theorem State.dropWrite_draws : (s.dropWrite).draws = s.draws := rfl

/-! The fields after free draws. -/

@[simp] theorem State.drew_platform (n : Nat) : (s.drew n).platform = s.platform := rfl
@[simp] theorem State.drew_bsz (n : Nat) : (s.drew n).bsz = s.bsz := rfl
@[simp] theorem State.drew_src (n : Nat) : (s.drew n).src = s.src := rfl
@[simp] theorem State.drew_dst (n : Nat) : (s.drew n).dst = s.dst := rfl
@[simp] theorem State.drew_width (n : Nat) : (s.drew n).width = s.width := rfl
@[simp] theorem State.drew_doneFlag (n : Nat) : (s.drew n).doneFlag = s.doneFlag := rfl
@[simp] theorem State.drew_error (n : Nat) : (s.drew n).error = s.error := rfl
@[simp] theorem State.drew_drop (n : Nat) : (s.drew n).drop = s.drop := rfl
@[simp] theorem State.drew_engine (n : Nat) : (s.drew n).engine = s.engine := rfl
@[simp] theorem State.drew_mem (n : Nat) : (s.drew n).mem = s.mem := rfl
@[simp] theorem State.drew_events (n : Nat) : (s.drew n).events = s.events := rfl
@[simp] theorem State.drew_readouts (n : Nat) : (s.drew n).readouts = s.readouts := rfl
@[simp] theorem State.drew_unobserved (n : Nat) : (s.drew n).unobserved = s.unobserved := rfl
@[simp] theorem State.drew_racy (n : Nat) : (s.drew n).racy = s.racy := rfl
@[simp] theorem State.drew_resetCut (n : Nat) : (s.drew n).resetCut = s.resetCut := rfl
@[simp] theorem State.drew_stopped (n : Nat) : (s.drew n).stopped = s.stopped := rfl
@[simp] theorem State.drew_draws (n : Nat) : (s.drew n).draws = s.draws + n := rfl

/-! The fields after the engine's return to IDLE. -/

@[simp] theorem State.retire_platform (r : Running) : (s.retire r).platform = s.platform := rfl
@[simp] theorem State.retire_bsz (r : Running) : (s.retire r).bsz = s.bsz := rfl
@[simp] theorem State.retire_src (r : Running) : (s.retire r).src = s.src := rfl
@[simp] theorem State.retire_dst (r : Running) : (s.retire r).dst = s.dst := rfl
@[simp] theorem State.retire_width (r : Running) : (s.retire r).width = s.width := rfl
@[simp] theorem State.retire_doneFlag (r : Running) : (s.retire r).doneFlag = s.doneFlag := rfl
@[simp] theorem State.retire_error (r : Running) : (s.retire r).error = s.error := rfl
@[simp] theorem State.retire_drop (r : Running) : (s.retire r).drop = s.drop := rfl
@[simp] theorem State.retire_engine (r : Running) : (s.retire r).engine = none := rfl
@[simp] theorem State.retire_mem (r : Running) : (s.retire r).mem = s.mem := rfl
@[simp] theorem State.retire_events (r : Running) : (s.retire r).events = s.events := rfl
@[simp] theorem State.retire_readouts (r : Running) : (s.retire r).readouts = s.readouts := rfl
@[simp] theorem State.retire_unobserved (r : Running) : (s.retire r).unobserved = ({ cmd := r.cmd, before := r.before, released := false, rewritten := [] } :: s.unobserved) := rfl
@[simp] theorem State.retire_racy (r : Running) : (s.retire r).racy = s.racy := rfl
@[simp] theorem State.retire_resetCut (r : Running) : (s.retire r).resetCut = s.resetCut := rfl
@[simp] theorem State.retire_stopped (r : Running) : (s.retire r).stopped = s.stopped := rfl
@[simp] theorem State.retire_draws (r : Running) : (s.retire r).draws = s.draws := rfl

/-! The fields after the registers at reset (10_state.md R36). -/

@[simp] theorem State.clearRegisters_platform : (s.clearRegisters).platform = s.platform := rfl
@[simp] theorem State.clearRegisters_bsz : (s.clearRegisters).bsz = 0 := rfl
@[simp] theorem State.clearRegisters_src : (s.clearRegisters).src = 0 := rfl
@[simp] theorem State.clearRegisters_dst : (s.clearRegisters).dst = 0 := rfl
@[simp] theorem State.clearRegisters_width : (s.clearRegisters).width = 0 := rfl
@[simp] theorem State.clearRegisters_doneFlag : (s.clearRegisters).doneFlag = false := rfl
@[simp] theorem State.clearRegisters_error : (s.clearRegisters).error = none := rfl
@[simp] theorem State.clearRegisters_drop : (s.clearRegisters).drop = false := rfl
@[simp] theorem State.clearRegisters_engine : (s.clearRegisters).engine = none := rfl
@[simp] theorem State.clearRegisters_mem : (s.clearRegisters).mem = s.mem := rfl
@[simp] theorem State.clearRegisters_events : (s.clearRegisters).events = s.events := rfl
@[simp] theorem State.clearRegisters_readouts : (s.clearRegisters).readouts = s.readouts := rfl
@[simp] theorem State.clearRegisters_unobserved : (s.clearRegisters).unobserved = s.unobserved := rfl
@[simp] theorem State.clearRegisters_racy : (s.clearRegisters).racy = s.racy := rfl
@[simp] theorem State.clearRegisters_resetCut : (s.clearRegisters).resetCut = s.resetCut := rfl
@[simp] theorem State.clearRegisters_stopped : (s.clearRegisters).stopped = s.stopped := rfl
@[simp] theorem State.clearRegisters_draws : (s.clearRegisters).draws = s.draws := rfl

/-! The fields after acceptance (30_encoding.md R86). -/

@[simp] theorem accept_platform (c : Latched) : (accept c s).platform = s.platform := rfl
@[simp] theorem accept_bsz (c : Latched) : (accept c s).bsz = s.bsz := rfl
@[simp] theorem accept_src (c : Latched) : (accept c s).src = s.src := rfl
@[simp] theorem accept_dst (c : Latched) : (accept c s).dst = s.dst := rfl
@[simp] theorem accept_width (c : Latched) : (accept c s).width = s.width := rfl
@[simp] theorem accept_doneFlag (c : Latched) : (accept c s).doneFlag = s.doneFlag := rfl
@[simp] theorem accept_error (c : Latched) : (accept c s).error = s.error := rfl
@[simp] theorem accept_drop (c : Latched) : (accept c s).drop = s.drop := rfl
@[simp] theorem accept_engine (c : Latched) : (accept c s).engine = (some { cmd := c, before := s.mem, done := [], hostWrites := [] }) := rfl
@[simp] theorem accept_mem (c : Latched) : (accept c s).mem = s.mem := rfl
@[simp] theorem accept_events (c : Latched) : (accept c s).events = s.events := rfl
@[simp] theorem accept_readouts (c : Latched) : (accept c s).readouts = s.readouts := rfl
@[simp] theorem accept_unobserved (c : Latched) : (accept c s).unobserved = s.unobserved := rfl
@[simp] theorem accept_racy (c : Latched) : (accept c s).racy = s.racy := rfl
@[simp] theorem accept_resetCut (c : Latched) : (accept c s).resetCut = s.resetCut := rfl
@[simp] theorem accept_stopped (c : Latched) : (accept c s).stopped = s.stopped := rfl
@[simp] theorem accept_draws (c : Latched) : (accept c s).draws = s.draws := rfl

/-! The fields after a CTRL write (10_state.md R23). -/

@[simp] theorem setCtrl_platform (v : Word) : (setCtrl v s).platform = s.platform := rfl
@[simp] theorem setCtrl_bsz (v : Word) : (setCtrl v s).bsz = (legalCode s.platform (requestedCode v)) := rfl
@[simp] theorem setCtrl_src (v : Word) : (setCtrl v s).src = s.src := rfl
@[simp] theorem setCtrl_dst (v : Word) : (setCtrl v s).dst = s.dst := rfl
@[simp] theorem setCtrl_width (v : Word) : (setCtrl v s).width = s.width := rfl
@[simp] theorem setCtrl_doneFlag (v : Word) : (setCtrl v s).doneFlag = s.doneFlag := rfl
@[simp] theorem setCtrl_error (v : Word) : (setCtrl v s).error = s.error := rfl
@[simp] theorem setCtrl_drop (v : Word) : (setCtrl v s).drop = s.drop := rfl
@[simp] theorem setCtrl_engine (v : Word) : (setCtrl v s).engine = s.engine := rfl
@[simp] theorem setCtrl_mem (v : Word) : (setCtrl v s).mem = s.mem := rfl
@[simp] theorem setCtrl_events (v : Word) : (setCtrl v s).events = s.events := rfl
@[simp] theorem setCtrl_readouts (v : Word) : (setCtrl v s).readouts = s.readouts := rfl
@[simp] theorem setCtrl_unobserved (v : Word) : (setCtrl v s).unobserved = s.unobserved := rfl
@[simp] theorem setCtrl_racy (v : Word) : (setCtrl v s).racy = s.racy := rfl
@[simp] theorem setCtrl_resetCut (v : Word) : (setCtrl v s).resetCut = s.resetCut := rfl
@[simp] theorem setCtrl_stopped (v : Word) : (setCtrl v s).stopped = s.stopped := rfl
@[simp] theorem setCtrl_draws (v : Word) : (setCtrl v s).draws = s.draws := rfl

/-! The fields after a SRC write (R24). -/

@[simp] theorem setSrc_platform (v : Word) : (setSrc v s).platform = s.platform := rfl
@[simp] theorem setSrc_bsz (v : Word) : (setSrc v s).bsz = s.bsz := rfl
@[simp] theorem setSrc_src (v : Word) : (setSrc v s).src = v := rfl
@[simp] theorem setSrc_dst (v : Word) : (setSrc v s).dst = s.dst := rfl
@[simp] theorem setSrc_width (v : Word) : (setSrc v s).width = s.width := rfl
@[simp] theorem setSrc_doneFlag (v : Word) : (setSrc v s).doneFlag = s.doneFlag := rfl
@[simp] theorem setSrc_error (v : Word) : (setSrc v s).error = s.error := rfl
@[simp] theorem setSrc_drop (v : Word) : (setSrc v s).drop = s.drop := rfl
@[simp] theorem setSrc_engine (v : Word) : (setSrc v s).engine = s.engine := rfl
@[simp] theorem setSrc_mem (v : Word) : (setSrc v s).mem = s.mem := rfl
@[simp] theorem setSrc_events (v : Word) : (setSrc v s).events = s.events := rfl
@[simp] theorem setSrc_readouts (v : Word) : (setSrc v s).readouts = s.readouts := rfl
@[simp] theorem setSrc_unobserved (v : Word) : (setSrc v s).unobserved = s.unobserved := rfl
@[simp] theorem setSrc_racy (v : Word) : (setSrc v s).racy = s.racy := rfl
@[simp] theorem setSrc_resetCut (v : Word) : (setSrc v s).resetCut = s.resetCut := rfl
@[simp] theorem setSrc_stopped (v : Word) : (setSrc v s).stopped = s.stopped := rfl
@[simp] theorem setSrc_draws (v : Word) : (setSrc v s).draws = s.draws := rfl

/-! The fields after a DST write (R25). -/

@[simp] theorem setDst_platform (v : Word) : (setDst v s).platform = s.platform := rfl
@[simp] theorem setDst_bsz (v : Word) : (setDst v s).bsz = s.bsz := rfl
@[simp] theorem setDst_src (v : Word) : (setDst v s).src = s.src := rfl
@[simp] theorem setDst_dst (v : Word) : (setDst v s).dst = v := rfl
@[simp] theorem setDst_width (v : Word) : (setDst v s).width = s.width := rfl
@[simp] theorem setDst_doneFlag (v : Word) : (setDst v s).doneFlag = s.doneFlag := rfl
@[simp] theorem setDst_error (v : Word) : (setDst v s).error = s.error := rfl
@[simp] theorem setDst_drop (v : Word) : (setDst v s).drop = s.drop := rfl
@[simp] theorem setDst_engine (v : Word) : (setDst v s).engine = s.engine := rfl
@[simp] theorem setDst_mem (v : Word) : (setDst v s).mem = s.mem := rfl
@[simp] theorem setDst_events (v : Word) : (setDst v s).events = s.events := rfl
@[simp] theorem setDst_readouts (v : Word) : (setDst v s).readouts = s.readouts := rfl
@[simp] theorem setDst_unobserved (v : Word) : (setDst v s).unobserved = s.unobserved := rfl
@[simp] theorem setDst_racy (v : Word) : (setDst v s).racy = s.racy := rfl
@[simp] theorem setDst_resetCut (v : Word) : (setDst v s).resetCut = s.resetCut := rfl
@[simp] theorem setDst_stopped (v : Word) : (setDst v s).stopped = s.stopped := rfl
@[simp] theorem setDst_draws (v : Word) : (setDst v s).draws = s.draws := rfl

/-! The fields after a WIDTH write (R26). -/

@[simp] theorem setWidthReg_platform (v : Word) : (setWidthReg v s).platform = s.platform := rfl
@[simp] theorem setWidthReg_bsz (v : Word) : (setWidthReg v s).bsz = s.bsz := rfl
@[simp] theorem setWidthReg_src (v : Word) : (setWidthReg v s).src = s.src := rfl
@[simp] theorem setWidthReg_dst (v : Word) : (setWidthReg v s).dst = s.dst := rfl
@[simp] theorem setWidthReg_width (v : Word) : (setWidthReg v s).width = v := rfl
@[simp] theorem setWidthReg_doneFlag (v : Word) : (setWidthReg v s).doneFlag = s.doneFlag := rfl
@[simp] theorem setWidthReg_error (v : Word) : (setWidthReg v s).error = s.error := rfl
@[simp] theorem setWidthReg_drop (v : Word) : (setWidthReg v s).drop = s.drop := rfl
@[simp] theorem setWidthReg_engine (v : Word) : (setWidthReg v s).engine = s.engine := rfl
@[simp] theorem setWidthReg_mem (v : Word) : (setWidthReg v s).mem = s.mem := rfl
@[simp] theorem setWidthReg_events (v : Word) : (setWidthReg v s).events = s.events := rfl
@[simp] theorem setWidthReg_readouts (v : Word) : (setWidthReg v s).readouts = s.readouts := rfl
@[simp] theorem setWidthReg_unobserved (v : Word) : (setWidthReg v s).unobserved = s.unobserved := rfl
@[simp] theorem setWidthReg_racy (v : Word) : (setWidthReg v s).racy = s.racy := rfl
@[simp] theorem setWidthReg_resetCut (v : Word) : (setWidthReg v s).resetCut = s.resetCut := rfl
@[simp] theorem setWidthReg_stopped (v : Word) : (setWidthReg v s).stopped = s.stopped := rfl
@[simp] theorem setWidthReg_draws (v : Word) : (setWidthReg v s).draws = s.draws := rfl

/-! The fields after the host program stops (70_reset_and_hazards.md R211). -/

@[simp] theorem stopHost_platform : (stopHost s).platform = s.platform := rfl
@[simp] theorem stopHost_bsz : (stopHost s).bsz = s.bsz := rfl
@[simp] theorem stopHost_src : (stopHost s).src = s.src := rfl
@[simp] theorem stopHost_dst : (stopHost s).dst = s.dst := rfl
@[simp] theorem stopHost_width : (stopHost s).width = s.width := rfl
@[simp] theorem stopHost_doneFlag : (stopHost s).doneFlag = s.doneFlag := rfl
@[simp] theorem stopHost_error : (stopHost s).error = s.error := rfl
@[simp] theorem stopHost_drop : (stopHost s).drop = s.drop := rfl
@[simp] theorem stopHost_engine : (stopHost s).engine = s.engine := rfl
@[simp] theorem stopHost_mem : (stopHost s).mem = s.mem := rfl
@[simp] theorem stopHost_readouts : (stopHost s).readouts = s.readouts := rfl
@[simp] theorem stopHost_unobserved : (stopHost s).unobserved = s.unobserved := rfl
@[simp] theorem stopHost_racy : (stopHost s).racy = s.racy := rfl
@[simp] theorem stopHost_resetCut : (stopHost s).resetCut = s.resetCut := rfl
@[simp] theorem stopHost_draws : (stopHost s).draws = s.draws := rfl
@[simp] theorem stopHost_events : (stopHost s).events = s.events.filter (fun e => !e.isHost) := rfl
@[simp] theorem stopHost_stopped : (stopHost s).stopped = true := rfl

/-- What a `require` can do: the host goes on, or its program stops. -/
theorem hostRequire_cases : hostRequire s = s ∨ hostRequire s = stopHost s := by
  unfold hostRequire; split
  · exact .inl rfl
  · exact .inr rfl

/-- What a host read of an offset leaves: everything but the readouts and the unobserved commands (10_state.md R34). -/
theorem readAt_eq (off : Nat) : ∃ l, readAt off s =
    { s with readouts := .register off (readOffset s off) :: s.readouts, unobserved := l } := by
  simp only [readAt, observeStatus]
  split_ifs <;> exact ⟨_, rfl⟩

/-- A register access by an offset of the window is either the aligned 32-bit one or misformed (R35). -/
@[simp] theorem resolveAccess_offset (p : Platform) {o : Nat} (w : AccessWidth) (h : o < 0x100) :
    resolveAccess p (.offset o) w = if accessAdmitted o w then .register o else .misformed := by
  simp only [resolveAccess, windowOffset, if_pos h]

/-- A register access that reaches a register is an aligned 32-bit one in the window. -/
theorem resolveAccess_register {p : Platform} {x : HostAddr} {w : AccessWidth} {o : Nat}
    (h : resolveAccess p x w = .register o) : windowOffset p x = some o ∧ accessAdmitted o w = true := by
  unfold resolveAccess at h
  split at h
  · rename_i off hoff
    split at h
    · rename_i ha; cases h; exact ⟨hoff, ha⟩
    · cases h
  · split at h <;> cases h

/-- A misformed access takes a byte of the window: at a bad offset or width, or from below (log 12). -/
theorem resolveAccess_misformed {p : Platform} {x : HostAddr} {w : AccessWidth}
    (h : resolveAccess p x w = .misformed) :
    (∃ off, windowOffset p x = some off ∧ accessAdmitted off w = false)
      ∨ ∃ a, x = .absolute a ∧ a < p.regBase ∧ p.regBase < a + w.bytes := by
  unfold resolveAccess at h
  split at h
  · rename_i off hoff
    split at h
    · cases h
    · rename_i ha; exact .inl ⟨off, hoff, by simpa using ha⟩
  · rename_i hnone
    split at h
    · rename_i hr
      cases x with
      | offset o =>
        simp only [reachesWindow, decide_eq_true_eq] at hr
        simp only [windowOffset, if_pos hr] at hnone; cases hnone
      | absolute a =>
        simp only [reachesWindow, Bool.and_eq_true, decide_eq_true_eq] at hr
        simp only [windowOffset] at hnone
        split at hnone
        · cases hnone
        · exact .inr ⟨a, rfl, by omega, hr.1⟩
    · cases h

/-- What a host register write can do when it answers a next state: nothing, or the write at its offset. -/
theorem hostWrite_cases {x : HostAddr} {w : AccessWidth} {v : Word} {s t : State} (h : hostWrite x w v s = .next t) :
    t = s ∨ ∃ off, windowOffset s.platform x = some off ∧ accessAdmitted off w = true
      ∧ writeOffset off v s = .next t := by
  unfold hostWrite at h
  split at h
  · cases h; exact .inl rfl
  · cases h
  · rename_i off ha
    exact .inr ⟨off, (resolveAccess_register ha).1, (resolveAccess_register ha).2, h⟩

/-- What a host register read can do when it answers a next state: nothing, or the read at its offset. -/
theorem hostRead_cases {x : HostAddr} {w : AccessWidth} {s t : State} (h : hostRead x w s = .next t) :
    t = s ∨ ∃ off, windowOffset s.platform x = some off ∧ accessAdmitted off w = true ∧ t = readAt off s := by
  unfold hostRead at h
  split at h
  · cases h; exact .inl rfl
  · cases h
  · rename_i off ha
    cases h
    exact .inr ⟨off, (resolveAccess_register ha).1, (resolveAccess_register ha).2, rfl⟩

/-! BUSY after the updates that set the engine, and the machine with one more event. -/

@[simp] theorem State.retire_busy (r : Running) : (s.retire r).busy = false := rfl
@[simp] theorem State.clearRegisters_busy : s.clearRegisters.busy = false := rfl
@[simp] theorem accept_busy (c : Latched) : (accept c s).busy = true := rfl

/-- A step takes the next event. -/
@[simp] theorem step_withEvent (e : Event) : step (s.withEvent e) = perform e s := rfl

/-- The step of an aligned 32-bit host write in the window. -/
theorem step_wordWrite {off : Nat} (v : Word) (h : off < 0x100) (h4 : off % 4 = 0) :
    step (s.withEvent (wordWrite off v)) = writeOffset off v s := by
  simp [wordWrite, perform, hostWrite, accessAdmitted, h, h4]

/-- The step of an aligned 32-bit host read in the window. -/
theorem step_wordRead {off : Nat} (h : off < 0x100) (h4 : off % 4 = 0) :
    step (s.withEvent (wordRead off)) = .next (readAt off s) := by
  simp [wordRead, perform, hostRead, accessAdmitted, h, h4]

/-- An equation for a step on an event, where the state lists its events. -/
theorem step_of_events {s : State} {e : Event} {rest : List Event} (h : s.events = e :: rest) :
    step s = perform e { s with events := rest } := by
  simp only [step, h]

/-- With no event left, the engine moves. -/
theorem step_of_no_events {s : State} (h : s.events = []) : step s = engineStep 0 s := by
  simp only [step, h]

end Sys2Proof.Machine
end

