-- ==== Sys2Proof/Laws/Units.lean ====
section
/-! SUPPORT. Facts about the parts of a command that later proofs cite: block sizes, the work units, the lengths of what
a unit writes, free draws, and the extents. -/

namespace Sys2Proof.Machine

theorem blockSize_pos (c : Fin 5) : 0 < blockSize c := by
  unfold blockSize; split <;> positivity

/-- Every block size is a power of two (00_scope.md R8). -/
theorem blockSize_eq_two_pow (c : Fin 5) : ∃ k, k ≤ 5 ∧ blockSize c = 2 ^ k := by
  unfold blockSize
  split
  · exact ⟨0, by omega, rfl⟩
  · exact ⟨c.val + 1, by omega, rfl⟩

theorem Latched.lanes_pos (c : Latched) : 0 < c.lanes := blockSize_pos c.code

@[simp] theorem Pixel.bytes_length (p : Pixel) : p.bytes.length = 4 := rfl

/-- T_B writes 4 bytes per lane. -/
@[simp] theorem transformBlock_length (b : Nat) (x : List Byte) : (transformBlock b x).length = 4 * b := by
  simp [transformBlock, List.length_flatMap, Nat.mul_comm]

/-- A unit writes 4 bytes per pixel. -/
@[simp] theorem WorkUnit.output_length (b : Nat) (u : WorkUnit) (x : List Byte) :
    (u.output b x).length = 4 * u.pixels b := by
  cases u <;> simp [WorkUnit.output, WorkUnit.pixels]

/-- Byte k of lane j of a block is byte k of P of that lane's pixel (40_pixelblock_transform.md R108). -/
theorem transformBlock_getElem? (b : Nat) (x : List Byte) (j k : Nat) (hj : j < b) (hk : k < 4) :
    (transformBlock b x)[4 * j + k]? = (lanePixel x j).transform.bytes[k]? := by
  unfold transformBlock
  induction b generalizing j with
  | zero => omega
  | succ b ih =>
    rw [List.range_succ, List.flatMap_append]
    have hl : ((List.range b).flatMap fun j => (lanePixel x j).transform.bytes).length = 4 * b :=
      transformBlock_length b x
    by_cases h : j < b
    · rw [List.getElem?_append_left (by omega), ih j h]
    · obtain rfl : j = b := by omega
      rw [List.getElem?_append_right (by omega), hl]
      simp

/-- A draw is one of the values drawn from. -/
theorem pick_mem (k : Nat) (x : Byte) (vs : List Byte) : pick k x vs ∈ x :: vs := by
  cases vs with
  | nil => simp [pick]
  | cons v vs =>
    have hlt : Config.freePick k % (vs.length + 2) < (x :: v :: vs).length := by
      simpa using Nat.mod_lt _ (Nat.succ_pos (vs.length + 1))
    rw [pick, List.getD_eq_getElem _ _ hlt]
    exact List.getElem_mem hlt

/-- Where there is one value there is nothing to draw. -/
@[simp] theorem pick_nil (k : Nat) (x : Byte) : pick k x [] = x := rfl

theorem inExtent_iff (base n a : Nat) : inExtent base n a = true ↔ base ≤ a ∧ a < base + 4 * n := by
  simp [inExtent]

theorem outOfRange_eq_false (s d n : Nat) :
    outOfRange s d n = false ↔ s + 4 * n ≤ 2 ^ 32 ∧ d + 4 * n ≤ 2 ^ 32 := by
  simp [outOfRange]

theorem overlaps_eq_false (s d n : Nat) : overlaps s d n = false ↔ d + 4 * n ≤ s ∨ s + 4 * n ≤ d := by
  simp only [overlaps, Bool.and_eq_false_iff, decide_eq_false_iff_not, not_lt]

/-- The host has logged nothing, so every byte is unraced. -/
theorem Running.hostValues_of_nil {r : Running} (h : r.hostWrites = []) (a : Nat) : r.hostValues a = [] := by
  simp [Running.hostValues, h]

/-- A byte the host has not raced is read as memory holds it. -/
theorem State.sourceByte_of_quiet (s : State) {r : Running} (k : Nat) {a : Nat} (h : r.hostValues a = []) :
    s.sourceByte r k a = readByte s.mem a := by
  simp only [State.sourceByte, h]

/-- The unit the engine takes is a pending one of its command. -/
theorem Running.nextUnit_mem {r : Running} {k : Nat} {u : WorkUnit} (h : r.nextUnit k = some u) :
    u ∈ r.cmd.units ∧ r.isDone (u.first r.cmd.lanes) = false := by
  have := List.mem_of_getElem? h
  rw [Running.pending, List.mem_filter] at this
  simpa using this

/-- The engine has no next unit exactly when none is pending. -/
theorem Running.nextUnit_eq_none {r : Running} {k : Nat} : r.nextUnit k = none ↔ r.pending = [] := by
  rw [Running.nextUnit, List.getElem?_eq_none_iff]
  constructor
  · intro h
    by_contra hne
    exact absurd (Nat.mod_lt k (List.length_pos_iff.2 hne)) (not_lt.2 h)
  · intro h; simp [h]

/-- Everything an engine step can do (30_encoding.md R87, 60_exceptions.md R176). -/
theorem engineStep_cases (k : Nat) (s : State) :
    (s.engine = none ∧ engineStep k s = .next s)
    ∨ ∃ r, s.engine = some r ∧
      ((r.pending = [] ∧ engineStep k s = .next (s.complete r))
        ∨ ∃ u, r.nextUnit k = some u ∧ u ∈ r.cmd.units ∧ r.isDone (u.first r.cmd.lanes) = false ∧
          ((r.cmd.unitInSpace u = false ∧ engineStep k s = .fault .outsideAddressSpace)
          ∨ (r.cmd.unitInSpace u = true ∧ unitAdmitted s.platform r.cmd u = true
              ∧ engineStep k s = .next (s.performUnit r u))
          ∨ (r.cmd.unitInSpace u = true ∧ unitAdmitted s.platform r.cmd u = false
              ∧ engineStep k s = .next (s.busFault r)))) := by
  unfold engineStep
  cases he : s.engine with
  | none => exact .inl ⟨rfl, rfl⟩
  | some r =>
    refine .inr ⟨r, rfl, ?_⟩
    cases hu : r.nextUnit k with
    | none => exact .inl ⟨Running.nextUnit_eq_none.1 hu, by simp [hu]⟩
    | some u =>
      refine .inr ⟨u, rfl, (Running.nextUnit_mem hu).1, (Running.nextUnit_mem hu).2, ?_⟩
      cases h1 : r.cmd.unitInSpace u <;> cases h2 : unitAdmitted s.platform r.cmd u <;>
        simp [hu, h1, h2]

/-- Everything a command request can do (R86): dropped, or gone on with DONE cleared. -/
theorem requestCommand_cases (go : State → Host.Outcome State Fault Refusal) (s : State) :
    (¬ TakesCommands s ∧ requestCommand go s = .next s.dropWrite)
    ∨ (TakesCommands s ∧ requestCommand go s = go { s with doneFlag := false }) := by
  unfold requestCommand TakesCommands
  cases hb : s.busy <;> cases he : s.error <;> simp_all

/-- Everything the common checks of a command can do (R86, R175). -/
theorem admitCommand_cases (c : Latched) (s : State) :
    (outOfRange c.src.toNat c.dst.toNat c.count = true ∧ admitCommand c s = .next (s.raise .range))
    ∨ (outOfRange c.src.toNat c.dst.toNat c.count = false ∧
      ((overlaps c.src.toNat c.dst.toNat c.count = true ∧ admitCommand c s = .next (s.raise .overlap))
      ∨ (overlaps c.src.toNat c.dst.toNat c.count = false ∧
        ((¬ ExtentsOrdinary s.platform c.src.toNat c.dst.toNat c.count
            ∧ admitCommand c s = .refused .sideEffectingExtent)
        ∨ (ExtentsOrdinary s.platform c.src.toNat c.dst.toNat c.count
            ∧ admitCommand c s = .next (accept c s)))))) := by
  unfold admitCommand ExtentsOrdinary
  cases outOfRange c.src.toNat c.dst.toNat c.count <;> cases overlaps c.src.toNat c.dst.toNat c.count <;>
    cases touchesSideEffecting s.platform c.src.toNat (4 * c.count) <;>
    cases touchesSideEffecting s.platform c.dst.toNat (4 * c.count) <;> simp

/-- Everything a CMD write can do, for a command or for an illegal word (R86): dropped; an error that changes DONE, ERR
and ERRCODE alone; refused on side-effecting memory; or accepted. -/
theorem exec_cases (i : Instr) (s : State) :
    (¬ TakesCommands s ∧ exec i s = .next s.dropWrite)
    ∨ (TakesCommands s ∧ ((∃ e, e ≠ .busFault ∧ exec i s = .next (s.raise e))
      ∨ (¬ ExtentsOrdinary s.platform s.src.toNat s.dst.toNat (pixelCount i s)
          ∧ exec i s = .refused .sideEffectingExtent)
      ∨ (Acceptable i s ∧ exec i s = .next (accept (latch i s) { s with doneFlag := false })))) := by
  have hgo : ∃ go, exec i s = requestCommand go s ∧
      (go { s with doneFlag := false } = .next (s.raise .zeroWidth)
        ∨ 0 < pixelCount i s ∧ go { s with doneFlag := false }
            = admitCommand (latch i s) { s with doneFlag := false }) := by
    cases i with
    | pixel => exact ⟨_, rfl, .inr ⟨Nat.one_pos, rfl⟩⟩
    | block => exact ⟨_, rfl, .inr ⟨blockSize_pos _, rfl⟩⟩
    | row =>
      refine ⟨fun t => if t.width = 0 then .next (t.raise .zeroWidth) else admitCommand (latch .row t) t, rfl, ?_⟩
      by_cases hw : s.width = 0
      · exact .inl (by simp [hw, State.raise])
      · refine .inr ⟨?_, if_neg hw⟩
        have : s.width.toNat ≠ 0 := fun h => hw (BitVec.eq_of_toNat_eq (by simpa using h))
        simp only [pixelCount]; omega
  obtain ⟨go, he, hz⟩ := hgo
  rcases requestCommand_cases go s with ⟨h, e⟩ | ⟨h, e⟩
  · exact .inl ⟨h, he.trans e⟩
  refine .inr ⟨h, ?_⟩
  rw [he, e]
  rcases hz with hz | ⟨hp, hz⟩
  · exact .inl ⟨_, by decide, hz⟩
  rw [hz]
  rcases admitCommand_cases (latch i s) { s with doneFlag := false } with
    ⟨_, a⟩ | ⟨h1, ⟨_, a⟩ | ⟨h2, ⟨h3, a⟩ | ⟨h3, a⟩⟩⟩
  · exact .inl ⟨_, by decide, a⟩
  · exact .inl ⟨_, by decide, a⟩
  · exact .inr (.inl ⟨h3, a⟩)
  · exact .inr (.inr ⟨⟨h, hp, h1, h2, h3⟩, a⟩)

end Sys2Proof.Machine
end

