-- ==== Sys2Proof/Laws/HostMemory.lean ====
section
/-! SUPPORT. What the host's own memory accesses can do: which of them are races, and what they return and leave. -/

namespace Sys2Proof.Machine

theorem unreleased_imp (released inside : Bool) :
    (released = false → inside = false) ↔ (released = true ∨ inside = false) := by
  cases released <;> simp

variable (s : State) (a : Nat)

/-- A host read is no race exactly for a byte outside the running destination and every unreleased one (R64, R206). -/
theorem readRaces_eq_false_iff : s.readRaces a = false ↔
    (∀ r, s.engine = some r → r.cmd.inDest a = false)
      ∧ ∀ f ∈ s.unobserved, f.released = true ∨ f.cmd.inDest a = false := by
  cases h : s.engine <;> simp [State.readRaces, State.runningDest, State.ownedDest, h, unreleased_imp]

/-- A host write is no race exactly where a read is none and the byte is outside the sources too (R64, R206). -/
theorem writeRaces_eq_false_iff : s.writeRaces a = false ↔
    s.readRaces a = false ∧ (∀ r, s.engine = some r → r.cmd.inSource a = false)
      ∧ ∀ f ∈ s.unobserved, f.released = true ∨ f.cmd.inSource a = false := by
  cases h : s.engine <;>
    simp [State.writeRaces, State.readRaces, State.runningDest, State.runningSource, State.ownedDest,
      State.ownedSource, h, unreleased_imp]
  tauto

variable {s a}

/-- A byte that is plain to read is no race to read, and no ended command's result. -/
theorem PlainToRead.laws (h : PlainToRead s a) :
    s.readRaces a = false ∧ s.unobservedAt a = [] ∧ s.ownedDest a = false := by
  refine ⟨(readRaces_eq_false_iff s a).2 ⟨h.1, fun f hf => .inr (h.2 f hf)⟩, ?_, ?_⟩
  · rw [State.unobservedAt, List.filter_eq_nil_iff]
    intro f hf; simp [h.2 f hf]
  · rw [State.ownedDest, List.any_eq_false]
    intro f hf; simp [h.2 f hf]

/-- A host write of a byte that is plain to write is no race. -/
theorem PlainToWrite.writeRaces (h : PlainToWrite s a) : s.writeRaces a = false :=
  (writeRaces_eq_false_iff s a).2 ⟨h.1.laws.1, h.2⟩

/-- Outside the running destination memory shows what it holds. -/
theorem hostView_of_not_dest (h : ∀ r, s.engine = some r → r.cmd.inDest a = false) :
    s.hostView a = (readByte s.mem a, []) := by
  unfold State.hostView
  cases he : s.engine with
  | none => rfl
  | some r => simp [h r he]

/-- What a host read outside the running destination can return (R64, R206, R207). -/
theorem hostReadByte_cases (h : ∀ r, s.engine = some r → r.cmd.inDest a = false) :
    s.hostReadByte a = readByte s.mem a
      ∨ ∃ f ∈ s.unobserved, f.cmd.inDest a = true ∧ s.hostReadByte a = readByte f.before a := by
  have hp := pick_mem s.draws (readByte s.mem a) ((s.unobservedAt a).map fun f => readByte f.before a)
  rw [State.hostReadByte, hostView_of_not_dest h, List.nil_append]
  rcases List.mem_cons.1 hp with e | e
  · exact .inl e
  · obtain ⟨f, hf, e⟩ := List.mem_map.1 e
    simp only [State.unobservedAt, List.mem_filter, Bool.and_eq_true] at hf
    exact .inr ⟨f, hf.1, hf.2.1, e.symm⟩

/-- A host read outside the running destination of a byte that is no ended command's result returns what memory holds. -/
theorem hostReadByte_plain (h : ∀ r, s.engine = some r → r.cmd.inDest a = false) (hn : s.unobservedAt a = []) :
    s.hostReadByte a = readByte s.mem a := by
  simp [State.hostReadByte, hostView_of_not_dest h, hn]

/-- What a host write can leave: the host's value, or, in a race with an ended command that wrote the byte, what memory
held (R64, R206). -/
theorem hostWriteByte_cases (v : Byte) : s.hostWriteByte a v = v
    ∨ (s.hostWriteByte a v = readByte s.mem a ∧ s.ownedDest a = true) := by
  unfold State.hostWriteByte
  split
  · rename_i ho
    have := pick_mem s.draws v [readByte s.mem a]
    simp only [List.mem_cons, List.not_mem_nil, or_false] at this
    exact this.imp_right fun e => ⟨e, ho⟩
  · exact .inl rfl

/-- A host write of a byte that no unreleased command wrote leaves the host's value. -/
@[simp] theorem hostWriteByte_of_not_owned (v : Byte) (h : s.ownedDest a = false) : s.hostWriteByte a v = v := by
  simp [State.hostWriteByte, h]

/-- A host write outside both extents of a command is not in its log. -/
theorem Running.logWrite_outside {r : Running} (v : Byte) (hs : r.cmd.inSource a = false) (hd : r.cmd.inDest a = false) :
    r.logWrite a v = r := by
  simp [Running.logWrite, hs, hd]

/-- A host write outside an ended command's destination leaves its entry alone. -/
theorem Finished.noteWrite_outside {f : Finished} (h : f.cmd.inDest a = false) : f.noteWrite a = f := by
  simp [Finished.noteWrite, h]

/-- A host write leaves an ended command's extents and its release alone. -/
@[simp] theorem Finished.noteWrite_cmd (f : Finished) : (f.noteWrite a).cmd = f.cmd := by
  unfold Finished.noteWrite; split <;> rfl

@[simp] theorem Finished.noteWrite_released (f : Finished) : (f.noteWrite a).released = f.released := by
  unfold Finished.noteWrite; split <;> rfl

/-- A host write that is no race settles the byte: no ended command's result stands in it. -/
theorem Finished.noteWrite_settles {f : Finished} (h : f.released = true ∨ f.cmd.inDest a = false) :
    (f.cmd.inDest a && !(f.noteWrite a).rewritten.contains a) = false := by
  unfold Finished.noteWrite
  cases hd : f.cmd.inDest a
  · rfl
  · simp only [hd, Bool.true_eq_false, or_false] at h
    simp [h]

end Sys2Proof.Machine
end

