-- ==== Sys2Proof/Laws/Memory.lean ====
section
/-! SUPPORT. The laws of memory: a write is read back, leaves every other byte alone and keeps the canonical form. The
frame laws hold of every list; reading back what was written needs the canonical form, since writing what an unlisted
byte reads as removes an entry. -/

namespace Sys2Proof.Machine

/-- A write leaves every other byte alone. -/
theorem readByte_writeByte_ne (m : Memory) {a b : Nat} (v : Byte) (h : b ≠ a) :
    readByte (writeByte m a v) b = readByte m b := by
  induction m with
  | nil => unfold writeByte; split <;> simp [readByte, h]
  | cons c m ih =>
    obtain ⟨x, w⟩ := c
    unfold writeByte
    split_ifs <;> simp_all [readByte]

/-- The canonical form above a bound holds above every smaller bound. -/
theorem memoryWfFrom_mono {lo lo' : Nat} {m : Memory} (h : memoryWfFrom lo m = true) (hl : lo' ≤ lo) :
    memoryWfFrom lo' m = true := by
  cases m with
  | nil => rfl
  | cons c m =>
    simp only [memoryWfFrom, Bool.and_eq_true, decide_eq_true_eq] at h ⊢
    exact ⟨⟨⟨hl.trans h.1.1.1, h.1.1.2⟩, h.1.2⟩, h.2⟩

/-- Below its bound a canonical memory lists nothing. -/
theorem readByte_below {lo a : Nat} {m : Memory} (h : memoryWfFrom lo m = true) (ha : a < lo) :
    readByte m a = unwritten := by
  induction m generalizing lo with
  | nil => rfl
  | cons c m ih =>
    obtain ⟨x, w⟩ := c
    simp only [memoryWfFrom, Bool.and_eq_true, decide_eq_true_eq] at h
    rw [readByte, if_neg (by omega)]
    exact ih h.2 (by omega)

/-- A write is read back. -/
theorem readByte_writeByte_self_from {lo : Nat} {m : Memory} (h : memoryWfFrom lo m = true) (a : Nat) (v : Byte) :
    readByte (writeByte m a v) a = v := by
  induction m generalizing lo with
  | nil => unfold writeByte; split <;> simp_all [readByte]
  | cons c m ih =>
    obtain ⟨x, w⟩ := c
    simp only [memoryWfFrom, Bool.and_eq_true, decide_eq_true_eq] at h
    rw [writeByte]
    split_ifs with h1 h2 h3 h4
    · rw [readByte, if_neg (by omega), readByte_below h.2 (by omega), h2]
    · simp [readByte]
    · rw [readByte_below h.2 (by omega), h4]
    · simp [readByte]
    · rw [readByte, if_neg h3]; exact ih h.2

theorem readByte_writeByte_self {m : Memory} (h : memoryWf m = true) (a : Nat) (v : Byte) :
    readByte (writeByte m a v) a = v := readByte_writeByte_self_from h a v

/-- A write of one byte, read anywhere. -/
theorem readByte_writeByte {m : Memory} (h : memoryWf m = true) (a b : Nat) (v : Byte) :
    readByte (writeByte m a v) b = if b = a then v else readByte m b := by
  split_ifs with hb
  · rw [hb, readByte_writeByte_self h]
  · exact readByte_writeByte_ne m v hb

/-- A write inside the address space keeps the canonical form. -/
theorem memoryWfFrom_writeByte {lo a : Nat} {m : Memory} (h : memoryWfFrom lo m = true) (hl : lo ≤ a)
    (ha : a < 2 ^ 32) (v : Byte) : memoryWfFrom lo (writeByte m a v) = true := by
  induction m generalizing lo with
  | nil => unfold writeByte; split <;> simp_all [memoryWfFrom]
  | cons c m ih =>
    obtain ⟨x, w⟩ := c
    have h' := h
    simp only [memoryWfFrom, Bool.and_eq_true, decide_eq_true_eq] at h'
    rw [writeByte]
    split_ifs with h1 h2 h3 h4
    · exact h
    · simp only [memoryWfFrom, Bool.and_eq_true, decide_eq_true_eq]
      exact ⟨⟨⟨hl, ha⟩, by simpa using h2⟩, ⟨⟨by omega, h'.1.1.2⟩, h'.1.2⟩, h'.2⟩
    · exact memoryWfFrom_mono h'.2 (by omega)
    · simp only [memoryWfFrom, Bool.and_eq_true, decide_eq_true_eq]
      exact ⟨⟨⟨hl, ha⟩, by simpa using h4⟩, by rw [h3]; exact h'.2⟩
    · simp only [memoryWfFrom, Bool.and_eq_true, decide_eq_true_eq]
      exact ⟨h'.1, ih h'.2 (by omega)⟩

theorem memoryWf_writeByte {m : Memory} (h : memoryWf m = true) {a : Nat} (ha : a < 2 ^ 32) (v : Byte) :
    memoryWf (writeByte m a v) = true := memoryWfFrom_writeByte h (Nat.zero_le a) ha v

/-- MemWrite leaves the bytes outside its range alone. -/
theorem readByte_writeBytes_outside (m : Memory) (a b : Nat) (vs : List Byte) (h : b < a ∨ a + vs.length ≤ b) :
    readByte (writeBytes m a vs) b = readByte m b := by
  induction vs generalizing m a with
  | nil => rfl
  | cons v vs ih =>
    simp only [List.length_cons] at h
    rw [writeBytes, ih _ _ (by omega), readByte_writeByte_ne _ _ (by omega)]

/-- MemWrite inside the address space keeps the canonical form. -/
theorem memoryWf_writeBytes {m : Memory} (h : memoryWf m = true) (a : Nat) (vs : List Byte)
    (ha : a + vs.length ≤ 2 ^ 32) : memoryWf (writeBytes m a vs) = true := by
  induction vs generalizing m a with
  | nil => exact h
  | cons v vs ih =>
    simp only [List.length_cons] at ha
    exact ih (memoryWf_writeByte h (by omega) v) (a + 1) (by omega)

/-- MemWrite is read back byte by byte. -/
theorem readByte_writeBytes_inside {m : Memory} (h : memoryWf m = true) (a j : Nat) (vs : List Byte)
    (hj : j < vs.length) (ha : a + vs.length ≤ 2 ^ 32) : readByte (writeBytes m a vs) (a + j) = vs.getD j 0 := by
  induction vs generalizing m a j with
  | nil => simp at hj
  | cons v vs ih =>
    simp only [List.length_cons] at hj ha
    rw [writeBytes]
    cases j with
    | zero =>
      rw [readByte_writeBytes_outside _ _ _ _ (by omega), Nat.add_zero, readByte_writeByte_self h]
      rfl
    | succ j =>
      have := ih (memoryWf_writeByte (a := a) h (by omega) v) (a + 1) j (by omega) (by omega)
      rw [show a + (j + 1) = a + 1 + j by omega, this]
      rfl

/-- A write, at an address computed from each entry of a list, of the entries that pass a test: the shape of the writes
that settle a command's destination bytes. -/
def writeEach {α : Type} (ok : α → Bool) (addr : α → Nat) (val : α → Byte) (l : List α) (m : Memory) : Memory :=
  l.foldl (fun m x => if ok x then writeByte m (addr x) (val x) else m) m

/-- A byte that no entry writes is left alone. -/
theorem readByte_writeEach_outside {α : Type} (ok : α → Bool) (addr : α → Nat) (val : α → Byte) (l : List α)
    (m : Memory) (b : Nat) (h : ∀ x ∈ l, ok x = true → addr x ≠ b) :
    readByte (writeEach ok addr val l m) b = readByte m b := by
  induction l generalizing m with
  | nil => rfl
  | cons x l ih =>
    rw [writeEach, List.foldl_cons, ← writeEach, ih _ (fun y hy => h y (List.mem_cons_of_mem _ hy))]
    split_ifs with hx
    · exact readByte_writeByte_ne _ _ (Ne.symm (h x (List.mem_cons_self ..) hx))
    · rfl

/-- Writes inside the address space keep the canonical form. -/
theorem memoryWf_writeEach {α : Type} (ok : α → Bool) (addr : α → Nat) (val : α → Byte) (l : List α) {m : Memory}
    (hm : memoryWf m = true) (h : ∀ x ∈ l, ok x = true → addr x < 2 ^ 32) :
    memoryWf (writeEach ok addr val l m) = true := by
  induction l generalizing m with
  | nil => exact hm
  | cons x l ih =>
    rw [writeEach, List.foldl_cons, ← writeEach]
    refine ih ?_ (fun y hy => h y (List.mem_cons_of_mem _ hy))
    split_ifs with hx
    · exact memoryWf_writeByte hm (h x (List.mem_cons_self ..) hx) _
    · exact hm

/-- A byte that some entry writes holds one of the values written to it. -/
theorem readByte_writeEach_inside {α : Type} (ok : α → Bool) (addr : α → Nat) (val : α → Byte) (l : List α) {m : Memory}
    (hm : memoryWf m = true) (h : ∀ x ∈ l, ok x = true → addr x < 2 ^ 32) (b : Nat)
    (hb : ∃ x ∈ l, ok x = true ∧ addr x = b) :
    ∃ x ∈ l, ok x = true ∧ addr x = b ∧ readByte (writeEach ok addr val l m) b = val x := by
  induction l generalizing m with
  | nil => simp at hb
  | cons x l ih =>
    have hm' : memoryWf (if ok x then writeByte m (addr x) (val x) else m) = true := by
      split_ifs with hx
      · exact memoryWf_writeByte hm (h x (List.mem_cons_self ..) hx) _
      · exact hm
    rw [writeEach, List.foldl_cons, ← writeEach]
    by_cases hl : ∃ y ∈ l, ok y = true ∧ addr y = b
    · obtain ⟨y, hy, h1, h2, h3⟩ := ih hm' (fun y hy => h y (List.mem_cons_of_mem _ hy)) hl
      exact ⟨y, List.mem_cons_of_mem _ hy, h1, h2, h3⟩
    · obtain ⟨y, hy, h1, h2⟩ := hb
      rcases List.mem_cons.1 hy with rfl | hy
      · refine ⟨y, List.mem_cons_self .., h1, h2, ?_⟩
        rw [readByte_writeEach_outside _ _ _ _ _ _ (fun z hz hk he => hl ⟨z, hz, hk, he⟩), if_pos h1, ← h2,
          readByte_writeByte_self hm]
      · exact absurd ⟨y, hy, h1, h2⟩ hl

end Sys2Proof.Machine
end

