-- ==== Sys2Proof/Laws/PerInstr.lean ====
section
/-! SUPPORT. A statement about each instruction as syntax: its fields pass the checks of WellFormed, its word has a zero
reserved field and its own opcode (30_encoding.md R81, R83), and the opcode is not another instruction's. -/

namespace Sys2Proof.Laws.Encoding

/-- The word of `i`: well-formed, RSV = 0, its OP is its own, and no other instruction has the same word. -/
def Statement (i : Instr) : Prop :=
  i.wellFormed = true ∧ (encode i).extractLsb' 4 28 = 0 ∧ (encode i).extractLsb' 0 4 = i.fields.op
    ∧ ∀ j : Instr, encode j = encode i → j = i

theorem pixel : Statement .pixel := by
  refine ⟨rfl, rfl, rfl, fun j h => ?_⟩
  cases j with
  | pixel => rfl
  | block => exact absurd h (by decide)
  | row => exact absurd h (by decide)

theorem block : Statement .block := by
  refine ⟨rfl, rfl, rfl, fun j h => ?_⟩
  cases j with
  | pixel => exact absurd h (by decide)
  | block => rfl
  | row => exact absurd h (by decide)

theorem row : Statement .row := by
  refine ⟨rfl, rfl, rfl, fun j h => ?_⟩
  cases j with
  | pixel => exact absurd h (by decide)
  | block => exact absurd h (by decide)
  | row => rfl

end Sys2Proof.Laws.Encoding
end

