-- ==== Sys2Proof/Tests/Slice0.lean ====
section
/-! SUPPORT. The model's own tests: words and values written out from the spec's tables (30_encoding.md R81,
95_test_vectors.md), each about one step on a small state, and a witness for the hypotheses of every statement. -/

namespace Sys2Proof.Tests

open Sys2Proof Sys2Proof.Machine

/-! ### Well-formedness and decoding -/

/-- A reserved OP is refused by its check (R81: 0x0 and 0x4 to 0xF). -/
theorem test_opDefined_refuses : (⟨0x0, 0⟩ : CmdFields).opDefined = false
    ∧ (⟨0x4, 0⟩ : CmdFields).opDefined = false ∧ (⟨0x4, 0⟩ : CmdFields).wellFormed = false := by decide

/-- A reserved bit that is set is refused by its check, whatever the OP (R83). -/
theorem test_rsvClear_refuses : (⟨0x3, 1⟩ : CmdFields).rsvClear = false
    ∧ (⟨0x3, 1⟩ : CmdFields).wellFormed = false := by decide

/-- The words of R81, bit 31 on the left. -/
theorem test_decode_pixel : decode 0b0000_0000_0000_0000_0000_0000_0000_0001 = .ok .pixel := by decide
theorem test_decode_block : decode 0b0000_0000_0000_0000_0000_0000_0000_0010 = .ok .block := by decide
theorem test_decode_row : decode 0b0000_0000_0000_0000_0000_0000_0000_0011 = .ok .row := by decide

/-- E4 and E5 of 95_test_vectors.md: a set reserved bit makes a word illegal whatever its OP. -/
theorem test_decode_reserved : decode 0x00000013 = .error (.reservedBits 1)
    ∧ decode 0x80000003 = .error (.reservedBits 0x8000000) ∧ decode 0 = .error (.reservedOp 0) := by decide

theorem test_decodeTableWord : decodeTableWord 32 1 = some .pixel ∧ decodeTableWord 32 2 = some .block
    ∧ decodeTableWord 32 3 = some .row ∧ decodeTableWord 32 4 = none := by decide

/-! ### The datapath: vectors V3, V6, V18, V19, V20 of 95_test_vectors.md -/

theorem test_luma_vectors : luma 29 150 77 = 114 ∧ luma 0 0 255 = 77 ∧ luma 22 0 0 = 2 ∧ luma 7 0 9 = 4
    ∧ luma 61 1 0 = 7 := by decide

/-- The worked example of 40_pixelblock_transform.md R111. -/
theorem test_transformBlock : transformBlock 4 [0, 0, 0, 200, 255, 255, 255, 0, 29, 150, 77, 1, 22, 0, 0, 9]
    = [0, 0, 0, 255, 255, 255, 255, 255, 114, 114, 114, 255, 2, 2, 2, 255] := by decide

/-! ### Small states -/

/-- All block sizes, memory admitted below 0x10000, a device at 0x20000. -/
def platform : Platform := ⟨0b1111, 0x40000000, [⟨0, 0x10000, .ordinary⟩, ⟨0x20000, 16, .sideEffecting⟩]⟩

def idle : State := { State.reset with platform := platform }

/-- Source pixel 0 is (29, 150, 77, 1), scenario 3 of the source. -/
def source : Memory := [(0x1000, 29), (0x1001, 150), (0x1002, 77), (0x1003, 1)]

def ready : State := { idle with src := 0x1000, dst := 0x2000, width := 2, mem := source }

def pixelCmd : Latched := ⟨.pixel, 0x1000, 0x2000, 1, 0⟩

/-- PIXEL accepted from `ready`. -/
def running : State := { ready with engine := some ⟨pixelCmd, source, [], []⟩ }

/-- The pixel is converted; the completion step is to come. -/
def written : State := { ready with
  mem := source ++ [(0x2000, 114), (0x2001, 114), (0x2002, 114), (0x2003, 255)]
  engine := some ⟨pixelCmd, source, [(0, 114)], []⟩ }

/-- As `written`, after the host wrote 7 to 0x2000. -/
def raced : State := { ready with
  mem := source ++ [(0x2000, 7), (0x2001, 114), (0x2002, 114), (0x2003, 255)]
  engine := some ⟨pixelCmd, source, [(0, 114)], [(0x2000, 7)]⟩ }

/-- An Overlap error is pending. -/
def failed : State := { ready with error := some .overlap }

/-- A command has ended and the host has not read STATUS. -/
def ended : State := { ready with doneFlag := true, unobserved := [⟨pixelCmd, source, false, []⟩] }

/-! ### One step each: vectors of 95_test_vectors.md -/

/-- STATUS after a step, or a value STATUS never has. -/
def statusAfter (o : Host.Outcome State Fault Refusal) : Word :=
  match o with
  | .next s => statusWord s
  | _ => 0xFFFFFFFF

/-- E12: adjacent extents are accepted. -/
theorem test_pixel_adjacent : statusAfter (step (({ idle with src := 0x100, dst := 0x104 } : State).withFetchWord 32 1))
    = 0x1 := by decide

/-- E7: the source extent ends at 2^32 + 1. -/
theorem test_pixel_range : statusAfter (step (({ idle with src := 0xFFFFFFFD } : State).withFetchWord 32 1))
    = 0x304 := by decide

/-- Z3: BLOCK right after reset has S = D = 0. -/
theorem test_block_after_reset : statusAfter (step (State.reset.withFetchWord 32 2)) = 0x404 := by decide

/-- Section 2.3, B = 32: destinations 0x7C and 0x80 after the source. -/
theorem test_block_width_32 : statusAfter (step (({ idle with bsz := 4, dst := 0x7C } : State).withFetchWord 32 2))
      = 0x404
    ∧ statusAfter (step (({ idle with bsz := 4, dst := 0x80 } : State).withFetchWord 32 2)) = 0x1 := by decide

/-- E6: ZeroWidth is checked before Range. -/
theorem test_row_zero_width : statusAfter (step (({ idle with src := 0xFFFFFFFF } : State).withFetchWord 32 3))
    = 0x204 := by decide

/-- E17 and E18: Range is exact, and checked before Overlap. -/
theorem test_row_range_before_overlap :
    statusAfter (step (({ idle with width := 0x40000000 } : State).withFetchWord 32 3)) = 0x404
    ∧ statusAfter (step (({ idle with width := 0x40000001 } : State).withFetchWord 32 3)) = 0x304 := by decide

/-- W6: a CMD write while ERR = 1 is dropped, and ERRCODE keeps 4. -/
theorem test_cmd_while_error : statusAfter (step (failed.withFetchWord 32 1)) = 0x40C := by decide

/-- W12: DONE is cleared, then IllegalCommand. -/
theorem test_illegal_clears_done : statusAfter (step (({ idle with doneFlag := true } : State).withFetchWord 32 0))
    = 0x104 := by decide

/-- W4: clearing ERR clears ERRCODE. -/
theorem test_status_clears_error : statusAfter (step (failed.withEvent (wordWrite 0x18 4))) = 0x0 := by decide

/-- Section 2.5: SUPPORTED_BSZ = 0b01011. -/
theorem test_ctrl_falls_back :
    (legalCode ⟨0b0101, 0, []⟩ (requestedCode 4), legalCode ⟨0b0101, 0, []⟩ (requestedCode 2),
      legalCode ⟨0b0101, 0, []⟩ (requestedCode 7)) = (3, 1, 3) := by decide

/-- X3: the engine's work step writes 114, 114, 114, 255. -/
theorem test_engine_pixel : (match engineStep 0 running with
    | .next s => readBytes s.mem 0x2000 5
    | _ => []) = [114, 114, 114, 255, 0] := by decide

/-- F4: address 0x10000 is not admitted, so the command ends with BusFault, STATUS 0x504. -/
theorem test_engine_busFault : statusAfter (engineStep 0 { running with
    engine := some ⟨⟨.pixel, 0x10000, 0x2000, 1, 0⟩, source, [], []⟩ }) = 0x504 := by decide

/-! ### Witnesses: the hypotheses of the statements hold together of concrete states -/

theorem idle_inv : Inv idle :=
  ⟨by decide, by decide, by decide, by decide, by decide, fun r h => by cases h⟩

theorem ready_inv : Inv ready :=
  ⟨by decide, by decide, by decide, by decide, by decide, fun r h => by cases h⟩

theorem failed_inv : Inv failed :=
  ⟨by decide, by decide, by decide, by decide, by decide, fun r h => by cases h⟩

theorem running_inv : Inv running := by
  refine ⟨by decide, by decide, by decide, by decide, by decide, fun r h => ?_⟩
  cases h
  exact ⟨rfl, by decide, by decide, by decide, by decide, by decide, by decide, by decide⟩

theorem written_inv : Inv written := by
  refine ⟨by decide, by decide, by decide, by decide, by decide, fun r h => ?_⟩
  cases h
  exact ⟨rfl, by decide, by decide, by decide, by decide, by decide, by decide, by decide⟩

theorem raced_inv : Inv raced := by
  refine ⟨by decide, by decide, by decide, by decide, by decide, fun r h => ?_⟩
  cases h
  exact ⟨rfl, by decide, by decide, by decide, by decide, by decide, by decide, by decide⟩

theorem running_data : DataOk running := by
  intro r h
  cases h
  exact ⟨fun _ _ _ => rfl, fun _ _ _ _ _ => rfl, fun _ _ _ h => by cases h⟩

/-- The source extent of `pixelCmd`, byte by byte. -/
theorem pixelCmd_source {a : Nat} (h : pixelCmd.inSource a = true) :
    a = 0x1000 ∨ a = 0x1001 ∨ a = 0x1002 ∨ a = 0x1003 := by
  simp only [Latched.inSource, inExtent_iff, pixelCmd, BitVec.reduceToNat] at h
  omega

theorem written_data : DataOk written := by
  intro r h
  cases h
  refine ⟨fun a ha _ => ?_, fun i k hi hk _ => ?_, fun i y hi hy _ => ?_⟩
  · rcases pixelCmd_source ha with rfl | rfl | rfl | rfl <;> rfl
  · obtain rfl : i = 0 := Nat.lt_one_iff.1 hi
    interval_cases k <;> rfl
  · obtain rfl : i = 0 := Nat.lt_one_iff.1 hi
    cases hy; rfl

theorem raced_data : DataOk raced := by
  intro r h
  cases h
  refine ⟨fun a ha _ => ?_, fun i k hi hk hq => ?_, fun i y hi hy _ => ?_⟩
  · rcases pixelCmd_source ha with rfl | rfl | rfl | rfl <;> rfl
  · obtain rfl : i = 0 := Nat.lt_one_iff.1 hi
    interval_cases k
    · exact absurd hq (by decide)
    all_goals rfl
  · obtain rfl : i = 0 := Nat.lt_one_iff.1 hi
    cases hy; rfl

/-- ResetKeepsMemory (its second clause), OperandWritesStore, CtrlStoresLargestSupportedCode, WaitPollsUntilIdle. -/
theorem test_witness_idle : idle.busy = false ∧ idle.events = [] := by decide

/-- ResetCutsCommandShort, ResetKeepsMemory (its first clause): the hypotheses, and bytes on both sides of the admitted destination's edges. -/
theorem test_witness_reset_cuts : Inv running ∧ DataOk running ∧ running.engine = some ⟨pixelCmd, source, [], []⟩
    ∧ pixelCmd.inDest 0x2000 = true ∧ pixelCmd.inDest 0x2003 = true ∧ pixelCmd.inDest 0x2004 = false
    ∧ admits platform 0x2000 = true :=
  ⟨running_inv, running_data, rfl, by decide, by decide, by decide, by decide⟩

/-- BusyDropsWrites: a busy state, and an offset of each clause at its edges. -/
theorem test_witness_busy : running.busy = true ∧ 0x14 ∈ [0x04, 0x08, 0x0C, 0x10, 0x14]
    ∧ (0x1C ≤ 0x1C ∧ 0x1C < 0x100 ∧ 0x1C % 4 = 0) ∧ (0x1C ≤ 0xFC ∧ 0xFC < 0x100 ∧ 0xFC % 4 = 0) := by decide

/-- RegistersChangeOnlyByWritesOrReset, StatusBitsChangeOnlyAsTabled, MemoryChangesOnlyWhereAllowed: steps that change
SRC, BUSY (up and down), ERR (up and down), DROP, DONE, and a byte of memory. -/
theorem test_witness_changes :
    (∃ t, step (idle.withEvent (wordWrite 0x08 5)) = .next t ∧ t.src ≠ idle.src)
    ∧ (Inv ready ∧ ∃ t, step (ready.withEvent (wordWrite 0x14 1)) = .next t ∧ t.busy = true)
    ∧ (Inv written ∧ ∃ t, step written = .next t ∧ t.busy = false ∧ t.doneFlag = true)
    ∧ (∃ t, step (ready.withEvent (wordWrite 0x14 0)) = .next t ∧ t.error = some .illegalCommand)
    ∧ (Inv failed ∧ ∃ t, step (failed.withEvent (wordWrite 0x18 4)) = .next t ∧ t.error = none)
    ∧ (∃ t, step (failed.withEvent (wordWrite 0x14 1)) = .next t ∧ t.drop = true)
    ∧ ∃ t, step running = .next t ∧ readByte t.mem 0x2000 ≠ readByte running.mem 0x2000 :=
  ⟨⟨_, rfl, by decide⟩, ⟨ready_inv, _, rfl, rfl⟩, ⟨written_inv, _, rfl, rfl, rfl⟩, ⟨_, rfl, rfl⟩,
    ⟨failed_inv, _, rfl, rfl⟩, ⟨_, rfl, rfl⟩, _, rfl, by decide⟩

/-- CapIsConstant, MarksAreNeverCleared, StepKeepsInvariant, StepKeepsCommandData, EngineStepFrame: a step answers a next
state, from a state of the invariant, marked racy. -/
theorem test_witness_step : Inv running ∧ DataOk running ∧ (∃ t, step running = .next t)
    ∧ (∃ t, engineStep 0 running = .next t)
    ∧ ∃ t, step { running with racy := true, resetCut := true, stopped := true } = .next t :=
  ⟨running_inv, running_data, ⟨_, rfl⟩, ⟨_, rfl⟩, _, rfl⟩

/-- RegisterReadsHaveNoSideEffect, ReservedReadsZeroIgnoresWrites, MisformedRegisterAccessRefused: the first and the last
offsets, misaligned ones, and values that differ in reserved bits only. -/
theorem test_witness_offsets : (0x00 < 0x100 ∧ 0x00 % 4 = 0) ∧ (0xFC < 0x100 ∧ 0xFC % 4 = 0)
    ∧ (0xFE < 0x100 ∧ 0xFE % 4 ≠ 0) ∧ AccessWidth.half ≠ .word
    ∧ (0xFFFFFFFC : Word).extractLsb' 0 3 = (0x4 : Word).extractLsb' 0 3
    ∧ (0xFFFFFFF1 : Word).extractLsb' 1 3 = (0x0 : Word).extractLsb' 1 3 := by decide

/-- WindowStandsAtRegBase: the last offset of the window, and accesses that end at its edges or reach over the lower. -/
theorem test_witness_window : 0xFF < 0x100 ∧ 0x3FFFFFFC + AccessWidth.word.bytes ≤ platform.regBase
    ∧ platform.regBase + 0x100 ≤ 0x40000100
    ∧ (0x3FFFFFFF < platform.regBase ∧ platform.regBase < 0x3FFFFFFF + AccessWidth.half.bytes) := by decide

/-- LumaRangeFacts, LanesAreIndependent, TransformProperties: lanes of different blocks with equal channels and
different alpha. -/
theorem test_witness_lanes : 1 < 2 ∧ 0 < 1 ∧ (5 : Byte).toNat ≤ (6 : Byte).toNat ∧
    ∀ k, k < 3 → ([0, 0, 0, 0, 9, 8, 7, 1] : List Byte).getD (4 * 1 + k) 0
      = ([9, 8, 7, 2] : List Byte).getD (4 * 0 + k) 0 := by decide

/-- DecodeVerdicts, StepRunsDecodedCommand: a word of each verdict, and a state that takes commands (a step in which BUSY
rises: `test_witness_changes`). -/
theorem test_witness_words : decode 3 = .ok .row ∧ decode 0 = .error (.reservedOp 0)
    ∧ (4 : Word) ≠ 1 ∧ (4 : Word) ≠ 2 ∧ (4 : Word) ≠ 3 ∧ TakesCommands idle :=
  ⟨by decide, by decide, by decide, by decide, by decide, by decide, by decide⟩

/-- CmdWriteFollowsTheChecks: ordinary extents for every command (its other branches: the tests of one step each). -/
theorem test_witness_cmd_write :
    ∀ i, ExtentsOrdinary ready.platform ready.src.toNat ready.dst.toNat (pixelCount i ready) := by
  intro i
  cases i <;> exact ⟨by decide, by decide⟩

/-- RequestErrorsArePrecise: PIXEL with S = D raises Overlap. -/
theorem test_witness_request_error : TakesCommands idle ∧ ∃ t, step (idle.withEvent (wordWrite 0x14 1)) = .next t
    ∧ t.error = some .overlap :=
  ⟨⟨by decide, by decide⟩, _, rfl, rfl⟩

/-- PendingErrorBlocksCommands, AcknowledgeClearsError. -/
theorem test_witness_pending_error : Inv failed ∧ failed.error.isSome = true ∧ failed.busy = false
    ∧ (4 : Word).getLsbD 2 = true :=
  ⟨failed_inv, by decide, by decide, by decide⟩

/-- SideEffectingExtentRefused: the hypotheses, with an extent on the device and with one beside it. -/
theorem test_witness_side_effect : ∀ d : Word, d = 0x20000 ∨ d = 0x20010 →
    TakesCommands { ready with dst := d } ∧ 0 < pixelCount .row { ready with dst := d }
      ∧ outOfRange 0x1000 d.toNat 2 = false ∧ overlaps 0x1000 d.toNat 2 = false
      ∧ sideEffecting platform d.toNat = decide (d = 0x20000) := by
  rintro d (rfl | rfl) <;> exact ⟨⟨by decide, by decide⟩, by decide, by decide, by decide, by decide⟩

theorem ready_acceptable (i : Instr) : Acceptable i ready := by
  cases i <;>
    exact ⟨⟨by decide, by decide⟩, by decide, by decide, by decide, by decide, by decide⟩

/-- CommandRequestFrame: an accepted request and one that is turned away. -/
theorem test_witness_exec : TakesCommands ready ∧ (∃ t, exec .row ready = .next t) ∧ ¬ TakesCommands failed
    ∧ ∃ t, exec .row failed = .next t :=
  ⟨⟨by decide, by decide⟩, ⟨_, rfl⟩, fun h => absurd h.2 (by decide), _, rfl⟩

/-- PrefixIsWholeBlocks, UnitsCoverEachPixelOnce, RemainderIsScalar: W = 17 with B = 16, and W = 15 < B. -/
theorem test_witness_split : 17 < 2 ^ 32 ∧ 15 < blockSize 3 ∧ Acceptable .row ready
    ∧ WorkUnit.scalar 0 ∈ pixelCmd.units :=
  ⟨by decide, by decide, ready_acceptable .row, by decide⟩

/-- A PIXEL whose source is not admitted. -/
def unadmitted : State := { ready with
  src := 0x10000, engine := some ⟨⟨.pixel, 0x10000, 0x2000, 1, 0⟩, source, [], []⟩ }

/-- BusFaultStops. -/
theorem test_witness_busFault : Inv unadmitted ∧ DataOk unadmitted
    ∧ (⟨⟨.pixel, 0x10000, 0x2000, 1, 0⟩, source, [], []⟩ : Running).nextUnit 0 = some (.scalar 0)
    ∧ unitAdmitted platform ⟨.pixel, 0x10000, 0x2000, 1, 0⟩ (.scalar 0) = false := by
  refine ⟨⟨by decide, by decide, by decide, by decide, by decide, fun r h => ?_⟩, fun r h => ?_, by decide, by decide⟩
  · cases h
    exact ⟨rfl, by decide, by decide, by decide, by decide, by decide, by decide, by decide⟩
  · cases h
    exact ⟨fun _ _ _ => rfl, fun _ _ _ _ _ => rfl, fun _ _ _ h => by cases h⟩

/-- The host uses registers, races with the command and waits, among the engine's steps. -/
def hostedRunning : State := { running with
  events := [.engine 5, wordWrite 0x08 0x9999, .memWrite 0x2000 7, .memRead 0x2000, wordRead 0x18, .wait] }

/-- The host will use the window, read memory and wait, among the engine's steps. -/
def hostedReady : State := { ready with events := [.engine 1, wordWrite 0x0C 0x9999, .memRead 0x1000, .wait] }

/-- RunningCommandEnds: every index done; and a busy state with an orderly host. -/
theorem test_witness_running_ends :
    (∀ i, i < pixelCmd.count → (⟨pixelCmd, source, [(0, 114)], []⟩ : Running).isDone i = true)
    ∧ Inv hostedRunning ∧ hostedRunning.busy = true ∧ HostOrderly hostedRunning := by
  refine ⟨by decide, ⟨by decide, by decide, by decide, by decide, by decide, fun r h => ?_⟩, by decide, ?_⟩
  · exact running_inv.running r h |> fun ok =>
      ⟨ok.latched, ok.nonempty, ok.inRange, ok.disjoint, ok.beforeWf, ok.doneLt, ok.doneUnits, ok.raced⟩
  · unfold HostOrderly; decide

/-- CompletedCommandHoldsFinalValues: one byte inside and one outside the destination. -/
theorem test_witness_completed : Inv written ∧ DataOk written
    ∧ (⟨pixelCmd, source, [(0, 114)], []⟩ : Running).pending = []
    ∧ pixelCmd.inDest 0x2003 = true ∧ pixelCmd.inDest 0x1FFF = false :=
  ⟨written_inv, written_data, by decide, by decide, by decide⟩

/-- PixelConvertsOnePixel, BlockConvertsItsLanes (B = 1), RowConvertsItsPixels, RowDoesNotDependOnBlockSize. -/
theorem test_witness_converts : Inv hostedReady ∧ (∀ i, Acceptable i hostedReady) ∧ HostQuiet hostedReady
    ∧ ExtentsAdmitted hostedReady.platform 0x1000 0x2000 1 ∧ ExtentsAdmitted hostedReady.platform 0x1000 0x2000 2
    ∧ supports hostedReady.platform 4 = true := by
  refine ⟨⟨by decide, by decide, by decide, by decide, by decide, fun r h => by cases h⟩, ready_acceptable, ⟨?_, ?_⟩,
    ?_, ?_, by decide⟩
  · unfold HostOrderly; decide
  · decide
  · unfold ExtentsAdmitted; decide
  · unfold ExtentsAdmitted; decide

/-- BlockConvertsItsLanes with B = 4. -/
theorem test_witness_block : Inv { hostedReady with bsz := 1 } ∧ Acceptable .block { hostedReady with bsz := 1 }
    ∧ HostQuiet { hostedReady with bsz := 1 } ∧ blockSize 1 = 4
    ∧ ExtentsAdmitted hostedReady.platform 0x1000 0x2000 4 := by
  refine ⟨⟨by decide, by decide, by decide, by decide, by decide, fun r h => by cases h⟩,
    ⟨⟨by decide, by decide⟩, by decide, by decide, by decide, by decide, by decide⟩, ⟨?_, ?_⟩, by decide, ?_⟩
  · unfold HostOrderly; decide
  · decide
  · unfold ExtentsAdmitted; decide

/-- A later command runs from 0x1004, and the host has not read STATUS since `pixelCmd` ended. -/
def again : State := { ended with
  src := 0x1004, dst := 0x3000, doneFlag := false, engine := some ⟨⟨.pixel, 0x1004, 0x3000, 1, 0⟩, source, [], []⟩ }

/-- HostMemoryAccessesArePlain: while IDLE; while a command runs, a byte of its source, and the bytes that end at its
source and begin after its destination; and a byte of an ended command's source. -/
theorem test_witness_host_memory : PlainToWrite idle 0x2000 ∧ PlainToRead running 0x1000 ∧ PlainToWrite running 0x0FFF
    ∧ PlainToWrite running 0x2004 ∧ PlainToRead again 0x1003 ∧ sideEffecting platform 0x2000 = false
    ∧ sideEffecting platform 0x1000 = false ∧ sideEffecting platform 0x0FFF = false
    ∧ sideEffecting platform 0x2004 = false ∧ memoryWf idle.mem = true ∧ memoryWf running.mem = true := by
  refine ⟨?_, ?_, ?_, ?_, ?_, by decide⟩ <;>
    simp [PlainToWrite, PlainToRead, idle, running, again, ended, ready, State.reset, Latched.inDest, Latched.inSource,
      inExtent, pixelCmd]

/-- R206: a host read of the running command's source is no race and returns what memory holds. -/
theorem test_read_running_source : (match step (running.withEvent (.memRead 0x1001)) with
    | .next s => (s.racy, s.readouts)
    | _ => (true, [])) = (false, [.memory 0x1001 150]) := by decide

/-- StatusReadObservesCompletion: a state with DONE = 1, one with DONE = 0, a destination byte of an unobserved command,
and a byte that is only in its source. -/
theorem test_witness_observed : ended.busy = false ∧ memoryWf ended.mem = true ∧ ended.doneFlag = true
    ∧ sideEffecting platform 0x2000 = false ∧ sideEffecting platform 0x1003 = false
    ∧ ({ ended with doneFlag := false } : State).doneFlag = false
    ∧ (∃ f ∈ ended.unobserved, f.released = false ∧ f.cmd.inDest (0x2000 : Addr).toNat = true)
    ∧ (∃ f ∈ ended.unobserved, f.released = false ∧ f.cmd.inSource (0x1003 : Addr).toNat = true)
    ∧ ∀ f ∈ ended.unobserved, f.cmd.inDest (0x1003 : Addr).toNat = false := by decide

/-- StatusReadObservesCompletion, its last three clauses while a later command runs: the same bytes, and a command that
is released. -/
theorem test_witness_observed_busy : again.busy = true ∧ memoryWf again.mem = true
    ∧ (∃ f ∈ again.unobserved, f.released = false ∧ f.cmd.inDest (0x2000 : Addr).toNat = true)
    ∧ (∃ f ∈ again.unobserved, f.released = false ∧ f.cmd.inSource (0x1003 : Addr).toNat = true)
    ∧ (∀ f ∈ again.unobserved, f.cmd.inDest (0x1003 : Addr).toNat = false)
    ∧ (∀ r ∈ again.engine, r.cmd.inDest (0x2000 : Addr).toNat = false ∧ r.cmd.inSource (0x2000 : Addr).toNat = false)
    ∧ ∀ f ∈ again.unobserved.map Finished.release, f.released = true ∧ f.cmd.inDest (0x2000 : Addr).toNat = true := by
  decide

/-- R207: after a STATUS read with DONE = 0 the results of an ended command are still not the host's to use; after one
with DONE = 1 they are. -/
theorem test_observe_needs_done :
    ((observeStatus { ended with doneFlag := false }).unobservedAt 0x2000).length = 1
    ∧ (observeStatus { ended with doneFlag := false }).readRaces 0x2000 = false
    ∧ (observeStatus ended).unobserved = [] := by decide

/-- RacesHaveTheStatedValueSets: a state and a byte for each clause. -/
theorem test_witness_races : (Inv running ∧ DataOk running
      ∧ running.engine = some ⟨pixelCmd, source, [], []⟩ ∧ sideEffecting platform 0x1000 = false
      ∧ pixelCmd.inDest (0x2000 : Addr).toNat = true ∧ pixelCmd.inSource (0x1000 : Addr).toNat = true
      ∧ sideEffecting platform 0x2000 = false)
    ∧ Inv raced ∧ DataOk raced ∧ raced.engine = some ⟨pixelCmd, source, [(0, 114)], [((0x2000 : Addr).toNat, 7)]⟩
    ∧ (⟨pixelCmd, source, [(0, 114)], [(0x2000, 7)]⟩ : Running).pending = [] :=
  ⟨⟨running_inv, running_data, rfl, by decide, by decide, by decide, by decide⟩, raced_inv, raced_data, rfl, by decide⟩

/-- RacesHaveTheStatedValueSets: `pixelCmd` runs again on bytes whose earlier conversion the host has not observed. -/
def rerunning : State := { running with unobserved := [⟨pixelCmd, source, false, []⟩] }

theorem test_witness_races_unobserved : Inv rerunning ∧ DataOk rerunning
    ∧ ∃ f ∈ rerunning.unobserved, f.released = false ∧ f.cmd.inDest (0x2000 : Addr).toNat = true := by
  refine ⟨⟨by decide, by decide, by decide, by decide, by decide, fun r h => ?_⟩, fun r h => ?_, by decide⟩ <;> cases h
  · exact ⟨rfl, by decide, by decide, by decide, by decide, by decide, by decide, by decide⟩
  · exact ⟨fun _ _ _ => rfl, fun _ _ _ _ _ => rfl, fun _ _ _ h => by cases h⟩

/-- RefusalsAreOnlyTheNamedOnes: a step that each named reason refuses. -/
theorem test_witness_refused :
    step (idle.withEvent (.regRead (.offset 2) .word)) = .refused .registerAccessForm
    ∧ step (({ ready with dst := 0x20000 } : State).withEvent (wordWrite 0x14 1)) = .refused .sideEffectingExtent
    ∧ step (idle.withEvent (.memRead 0x20000)) = .refused .sideEffectingAccess :=
  ⟨rfl, rfl, rfl⟩

/-- WaitPollsUntilIdle: a wait while BUSY answers a next state. -/
theorem test_witness_wait : running.busy = true ∧ ∃ t, step (running.withEvent .wait) = .next t :=
  ⟨by decide, _, rfl⟩

/-- P3 of 95_test_vectors.md: the host loop of R211 over three rows of stride 24; a short stride and overlapping buffers
are refused. -/
theorem test_convertImage : convertImage 0x4000 0x5000 5 3 24
      = some [.xrow 0x4000 0x5000 5, .requireDone, .xrow 0x4018 0x5018 5, .requireDone, .xrow 0x4030 0x5030 5, .requireDone]
    ∧ convertImage 0x4000 0x5000 5 3 19 = none ∧ convertImage 0x4000 0x4018 5 3 24 = none := by decide

/-- HostLoopChecksEachRow: a program whose rows exist, and STATUS values that go on and that stop. -/
theorem test_witness_host_loop : (∃ p, convertImage 0x4000 0x5000 5 3 24 = some p) ∧ 2 < 3
    ∧ (ended.doneFlag = true ∧ ended.error = none) ∧ idle.doneFlag = false ∧ failed.error.isSome = true :=
  ⟨⟨_, rfl⟩, by decide⟩

/-- R211: a `require` after a STATUS value with ERR = 1 stops the host's program; after DONE = 1 it goes on. -/
theorem test_require :
    step { failed with readouts := [.register 0x18 0x404], events := [.requireDone, wordWrite 0x14 1] }
      = .next { failed with readouts := [.register 0x18 0x404], events := [], stopped := true }
    ∧ step { idle with readouts := [.register 0x18 2], events := [.requireDone, wordWrite 0x14 1] }
      = .next { idle with readouts := [.register 0x18 2], events := [wordWrite 0x14 1] } := ⟨rfl, rfl⟩

/-- R35 (log 12): an access from below the window that reaches CAP is refused; one that ends before it is not. -/
theorem test_access_reaching_window :
    step (idle.withEvent (.regRead (.absolute 0x3FFFFFFE) .word)) = .refused .registerAccessForm
    ∧ step (idle.withEvent (.regRead (.absolute 0x3FFFFFFC) .word)) = .next idle := ⟨rfl, rfl⟩

end Sys2Proof.Tests
end

section
/-! SUPPORT. The register window (10_state.md R20 to R35): one equation per register write, what a CMD write can change,
the rule of CTRL.BSZ, and the reserved bits. -/

namespace Sys2Proof.Machine

variable (s : State) (v : Word)

/-! A read by its offset (R34). -/

theorem readOffset_cap : readOffset s 0x00 = (supportedBsz s.platform).setWidth 32 := rfl
theorem readOffset_ctrl : readOffset s 0x04 = BitVec.ofNat 32 s.bsz.val := rfl
theorem readOffset_src : readOffset s 0x08 = s.src := rfl
theorem readOffset_dst : readOffset s 0x0C = s.dst := rfl
theorem readOffset_width : readOffset s 0x10 = s.width := rfl
theorem readOffset_cmd : readOffset s 0x14 = 0 := rfl
theorem readOffset_status : readOffset s 0x18 = statusWord s := rfl

/-! A write by its offset. -/

@[simp] theorem writeOffset_cap : writeOffset 0x00 v s = .next s := rfl
@[simp] theorem writeOffset_ctrl : writeOffset 0x04 v s = .next (unlessBusy (setCtrl v) s) := rfl
@[simp] theorem writeOffset_src : writeOffset 0x08 v s = .next (unlessBusy (setSrc v) s) := rfl
@[simp] theorem writeOffset_dst : writeOffset 0x0C v s = .next (unlessBusy (setDst v) s) := rfl
@[simp] theorem writeOffset_width : writeOffset 0x10 v s = .next (unlessBusy (setWidthReg v) s) := rfl
@[simp] theorem writeOffset_cmd : writeOffset 0x14 v s = writeCmd v s := rfl
@[simp] theorem writeOffset_status : writeOffset 0x18 v s = .next (writeStatus v s) := rfl

/-- No register stands above STATUS (R29). -/
theorem regAt_reserved {off : Nat} (h : 0x1C ≤ off) : regAt off = none := by
  unfold regAt
  repeat rw [if_neg (by omega)]

theorem readOffset_reserved {off : Nat} (h : 0x1C ≤ off) : readOffset s off = 0 := by
  simp [readOffset, regAt_reserved h]

theorem writeOffset_reserved {off : Nat} (h : 0x1C ≤ off) : writeOffset off v s = .next s := by
  simp [writeOffset, regAt_reserved h]

theorem unlessBusy_of_busy (f : State → State) (h : s.busy = true) : unlessBusy f s = s.dropWrite := if_pos h

theorem unlessBusy_of_idle (f : State → State) (h : s.busy = false) : unlessBusy f s = f s := by
  simp [unlessBusy, h]

/-- The effect of a STATUS write, field by field (R28). -/
theorem writeStatus_eq : writeStatus v s = { s with
    doneFlag := s.doneFlag && !v.getLsbD 1
    error := if v.getLsbD 2 then none else s.error
    drop := s.drop && !v.getLsbD 3 } := by
  unfold writeStatus clearDrop clearErr clearDone
  cases v.getLsbD 1 <;> cases v.getLsbD 2 <;> cases v.getLsbD 3 <;> simp [State.acknowledge]

/-! A write of CMD. -/

theorem rejectCommand_cases :
    (¬ TakesCommands s ∧ rejectCommand s = .next s.dropWrite)
    ∨ (TakesCommands s ∧ rejectCommand s = .next (s.raise .illegalCommand)) :=
  requestCommand_cases (fun t => .next (t.raise .illegalCommand)) s

/-- Everything a CMD write can do (30_encoding.md R86): dropped, an error recorded, refused on side-effecting memory
(20_memory.md R59), or its command accepted. -/
theorem writeCmd_cases :
    (¬ TakesCommands s ∧ writeCmd v s = .next s.dropWrite)
    ∨ (TakesCommands s ∧ ((∃ e, e ≠ .busFault ∧ writeCmd v s = .next (s.raise e))
      ∨ writeCmd v s = .refused .sideEffectingExtent
      ∨ ∃ i, Acceptable i s ∧ writeCmd v s = .next (accept (latch i s) { s with doneFlag := false }))) := by
  unfold writeCmd
  cases decode v with
  | error e =>
    rcases rejectCommand_cases s with h | ⟨ht, h⟩
    · exact .inl h
    · exact .inr ⟨ht, .inl ⟨_, by decide, h⟩⟩
  | ok i =>
    rcases exec_cases i s with h | ⟨ht, h | ⟨-, h⟩ | h⟩
    · exact .inl h
    · exact .inr ⟨ht, .inl h⟩
    · exact .inr ⟨ht, .inr (.inl h)⟩
    · exact .inr ⟨ht, .inr (.inr ⟨i, h⟩)⟩

theorem writeCmd_of_busy (h : s.busy = true) : writeCmd v s = .next s.dropWrite := by
  rcases writeCmd_cases s v with ⟨-, e⟩ | ⟨⟨hb, -⟩, -⟩
  · exact e
  · simp [h] at hb

/-- What a register write at an offset can answer: the refusal of a command's extents (20_memory.md R59), or a next state
with the same platform. -/
theorem writeOffset_cases (off : Nat) : writeOffset off v s = .refused .sideEffectingExtent
    ∨ ∃ t, writeOffset off v s = .next t ∧ t.platform = s.platform := by
  have guarded (f : State → State) (hf : (f s).platform = s.platform) : (unlessBusy f s).platform = s.platform := by
    unfold unlessBusy; split
    · rfl
    · exact hf
  unfold writeOffset
  cases regAt off with
  | none => exact .inr ⟨s, rfl, rfl⟩
  | some r =>
    cases r with
    | cap => exact .inr ⟨s, rfl, rfl⟩
    | ctrl => exact .inr ⟨_, rfl, guarded (setCtrl v) rfl⟩
    | src => exact .inr ⟨_, rfl, guarded (setSrc v) rfl⟩
    | dst => exact .inr ⟨_, rfl, guarded (setDst v) rfl⟩
    | width => exact .inr ⟨_, rfl, guarded (setWidthReg v) rfl⟩
    | status => exact .inr ⟨_, rfl, by rw [writeStatus_eq]⟩
    | cmd =>
      rcases writeCmd_cases s v with ⟨-, h⟩ | ⟨-, ⟨e, -, h⟩ | h | ⟨i, -, h⟩⟩
      · exact .inr ⟨_, h, rfl⟩
      · exact .inr ⟨_, h, rfl⟩
      · exact .inl h
      · exact .inr ⟨_, h, rfl⟩

/-! The code a write of CTRL stores (R23). -/

theorem requestedCode_val : (requestedCode v).val = min (v.toNat % 8) 4 := by
  simp [requestedCode, Fin.ofNat]

/-- A CTRL write depends on bits 2:0 alone (R22). -/
theorem setCtrl_congr {v w : Word} (h : v.extractLsb' 0 3 = w.extractLsb' 0 3) : setCtrl v = setCtrl w := by
  funext s
  simp only [setCtrl, requestedCode, h]

/-- Bit 0 of SUPPORTED_BSZ is hardwired, the others are the platform's (R21). -/
theorem supportedBsz_getLsbD (p : Platform) (i : Nat) :
    (supportedBsz p).getLsbD i = (decide (i = 0) || p.wideBsz.getLsbD (i - 1)) := by
  rw [supportedBsz, BitVec.getLsbD_append]
  cases i <;> simp

theorem supports_zero (p : Platform) : supports p 0 = true := by
  simp [supports, supportedBsz_getLsbD]

/-- The first hit in a falling list is the largest one. -/
theorem le_of_find?_eq_some {l : List (Fin 5)} {q : Fin 5 → Bool} {c d : Fin 5} (hl : l.Pairwise (· > ·))
    (hc : l.find? q = some c) (hd : d ∈ l) (hq : q d = true) : d ≤ c := by
  obtain ⟨-, front, back, rfl, hfront⟩ := List.find?_eq_some_iff_append.1 hc
  have hback : ∀ x ∈ back, c > x := (List.pairwise_cons.1 (List.pairwise_append.1 hl).2.1).1
  rcases List.mem_append.1 hd with h | h
  · simpa [hq] using hfront d h
  · rcases List.mem_cons.1 h with rfl | h
    · exact le_rfl
    · exact (hback d h).le

/-- The rule of CTRL.BSZ stores the largest supported code not above the request (R23). -/
theorem legalCode_isGreatest (p : Platform) (req : Fin 5) :
    IsGreatest {c | c ≤ req ∧ supports p c = true} (legalCode p req) := by
  have wide : ∀ c : Fin 5, c = 0 ∨ c ∈ ([4, 3, 2, 1] : List (Fin 5)) := by decide
  unfold legalCode
  cases hf : ([4, 3, 2, 1] : List (Fin 5)).find? fun c => decide (c ≤ req) && supports p c with
  | none =>
    refine ⟨⟨Fin.zero_le _, supports_zero p⟩, fun c ⟨hle, hs⟩ => ?_⟩
    rcases wide c with rfl | hc
    · exact le_rfl
    · simpa [hle, hs] using List.find?_eq_none.1 hf c hc
  | some m =>
    refine ⟨by simpa using List.find?_some hf, fun c ⟨hle, hs⟩ => ?_⟩
    rcases wide c with rfl | hc
    · exact Fin.zero_le _
    · exact le_of_find?_eq_some (by decide) hf hc (by simp [hle, hs])

/-! The bits of CAP, CTRL and STATUS as read. -/

/-- A field is 0 when each of its bits is. -/
theorem extractLsb'_eq_zero_of_getLsbD {x : Word} {k n : Nat} (h : ∀ i, k ≤ i → i < k + n → x.getLsbD i = false) :
    x.extractLsb' k n = 0 := by
  ext i hi
  simp [h (k + i) (by omega) (by omega)]

theorem readOffset_cap_getLsbD (i : Nat) : (readOffset s 0x00).getLsbD i =
    (decide (i = 0) || (decide (0 < i ∧ i < 5) && s.platform.wideBsz.getLsbD (i - 1))) := by
  rw [readOffset_cap, BitVec.getLsbD_setWidth, supportedBsz_getLsbD]
  by_cases hi : i < 5
  · have h32 : i < 32 := by omega
    rcases Nat.eq_zero_or_pos i with rfl | hpos
    · rfl
    · simp [hi, h32, hpos]
  · have hzero : i ≠ 0 := by omega
    simp [hi, hzero, BitVec.getLsbD_of_ge _ (i - 1) (show 4 ≤ i - 1 by omega)]

theorem readOffset_ctrl_toNat : (readOffset s 0x04).toNat = s.bsz.val := by
  rw [readOffset_ctrl, BitVec.toNat_ofNat]
  omega

/-- Bits 31:5 of CAP are reserved (R21). -/
theorem readOffset_cap_reserved : (readOffset s 0x00).extractLsb' 5 27 = 0 := by
  refine extractLsb'_eq_zero_of_getLsbD fun i hlo _ => ?_
  have hrange : i ≠ 0 ∧ ¬ i < 5 := by omega
  simp [readOffset_cap_getLsbD, hrange]

/-- Bits 31:3 of CTRL are reserved (R22): a code is below 2^3. -/
theorem readOffset_ctrl_reserved : (readOffset s 0x04).extractLsb' 3 29 = 0 := by
  refine extractLsb'_eq_zero_of_getLsbD fun i hlo _ => Nat.testBit_lt_two_pow ?_
  rw [readOffset_ctrl_toNat]
  calc s.bsz.val < 2 ^ 3 := by omega
    _ ≤ 2 ^ i := Nat.pow_le_pow_right (by decide) hlo

/-- Bits 7:4 and 31:12 of STATUS are reserved (R28). -/
theorem statusWord_getLsbD_reserved {i : Nat} (h : 4 ≤ i ∧ i < 8 ∨ 12 ≤ i) : (statusWord s).getLsbD i = false := by
  have flags : ¬ i < 1 ∧ ¬ i - 1 < 1 ∧ ¬ i - 1 - 1 < 1 ∧ ¬ i - 1 - 1 - 1 < 1 := by omega
  simp only [statusWord, BitVec.getLsbD_append, flags]
  by_cases hmiddle : i - 1 - 1 - 1 - 1 < 4
  · simp [hmiddle]
  · have herr : ¬ i - 1 - 1 - 1 - 1 - 4 < 4 := by omega
    simp [hmiddle, herr]

/-- A STATUS write depends on bits 3:1 alone (R28). -/
theorem writeStatus_congr {v w : Word} (h : v.extractLsb' 1 3 = w.extractLsb' 1 3) :
    writeStatus v s = writeStatus w s := by
  have bit (i : Nat) (hi : i < 3) : v.getLsbD (1 + i) = w.getLsbD (1 + i) := by
    simpa [BitVec.getLsbD_extractLsb', hi] using congrArg (·.getLsbD i) h
  rw [writeStatus_eq, writeStatus_eq, bit 0 (by decide), bit 1 (by decide), bit 2 (by decide)]

end Sys2Proof.Machine
end

section
/-! SUPPORT. The OPEN parameters of 00_scope.md R7 are the same after every step; the form of a register access
(10_state.md R35). -/

namespace Sys2Proof.Machine

variable {s t : State}

theorem engineStep_platform {k : Nat} (h : engineStep k s = .next t) : t.platform = s.platform := by
  rcases engineStep_cases k s with ⟨-, e⟩ | ⟨r, -, ⟨-, e⟩ | ⟨u, -, -, -, ⟨-, e⟩ | ⟨-, -, e⟩ | ⟨-, -, e⟩⟩⟩ <;>
    rw [e] at h <;> cases h <;> rfl

theorem readAt_platform (off : Nat) (s : State) : (readAt off s).platform = s.platform := by
  obtain ⟨l, e⟩ := readAt_eq s off
  rw [e]

theorem applyReset_platform (s : State) : (applyReset s).platform = s.platform := by
  unfold applyReset
  cases s.engine <;> rfl

theorem hostMemRead_platform {a : Addr} (h : hostMemRead a s = .next t) : t.platform = s.platform := by
  unfold hostMemRead at h
  split at h
  · cases h
  · cases h; rfl

theorem hostMemWrite_platform {a : Addr} {v : Byte} (h : hostMemWrite a v s = .next t) :
    t.platform = s.platform := by
  unfold hostMemWrite at h
  split at h
  · cases h
  · cases h; rfl

theorem hostWrite_platform {x : HostAddr} {w : AccessWidth} {v : Word} (h : hostWrite x w v s = .next t) :
    t.platform = s.platform := by
  rcases hostWrite_cases h with rfl | ⟨off, -, -, hw⟩
  · rfl
  · rcases writeOffset_cases s v off with e | ⟨u, e, hu⟩
    · rw [e] at hw; cases hw
    · rw [e] at hw; cases hw; exact hu

theorem hostRead_platform {x : HostAddr} {w : AccessWidth} (h : hostRead x w s = .next t) :
    t.platform = s.platform := by
  rcases hostRead_cases h with rfl | ⟨off, -, -, rfl⟩
  · rfl
  · exact readAt_platform off s

theorem hostWait_platform (h : hostWait s = .next t) : t.platform = s.platform := by
  unfold hostWait at h
  split at h
  · exact engineStep_platform (s := { s with events := .wait :: s.events }) h
  · cases h; exact readAt_platform _ s

theorem perform_platform {e : Event} (h : perform e s = .next t) : t.platform = s.platform := by
  cases e with
  | regWrite x w v => exact hostWrite_platform h
  | regRead x w => exact hostRead_platform h
  | memWrite a v => exact hostMemWrite_platform h
  | memRead a => exact hostMemRead_platform h
  | wait => exact hostWait_platform h
  | requireDone => cases h; rcases hostRequire_cases s with e | e <;> rw [e]; rfl
  | reset => cases h; exact applyReset_platform s
  | engine k => exact engineStep_platform h

/-- No step changes the platform (R7). -/
theorem step_platform (h : step s = .next t) : t.platform = s.platform := by
  cases he : s.events with
  | nil => rw [step_of_no_events he] at h; exact engineStep_platform h
  | cons e rest => rw [step_of_events he] at h; exact perform_platform (s := { s with events := rest }) h

/-- Any access in the window but the aligned 32-bit one is refused (R35). -/
theorem step_misformed (s : State) {off : Nat} {w : AccessWidth} (v : Word) (h : off < 0x100)
    (hbad : w ≠ .word ∨ off % 4 ≠ 0) :
    step (s.withEvent (.regWrite (.offset off) w v)) = .refused .registerAccessForm
      ∧ step (s.withEvent (.regRead (.offset off) w)) = .refused .registerAccessForm := by
  have hno : accessAdmitted off w = false := by
    simp only [accessAdmitted, Bool.and_eq_false_iff, beq_eq_false_iff_ne]
    exact hbad
  simp [perform, hostWrite, hostRead, h, hno]

end Sys2Proof.Machine
end

section
/-! PROOF. The statements on the registers: CTRL, CAP, the reserved offsets and bits, writes while BUSY, reads, and the
form of an access (10_state.md R21 to R35). -/

namespace Sys2Proof.Proofs.Registers

open Sys2Proof Sys2Proof.Machine

/-- Settles O8: the stored code is the greatest element of the supported codes within the request. -/
theorem ctrlStoresLargestSupportedCode : Obligations.CtrlStoresLargestSupportedCode := by
  intro s v hb
  obtain ⟨⟨hle, hsup⟩, hmax⟩ := legalCode_isGreatest s.platform (requestedCode v)
  have bound (c : Fin 5) : c ≤ requestedCode v ↔ c.val ≤ min (v.toNat % 8) 4 := by
    rw [Fin.le_def, requestedCode_val]
  refine ⟨setCtrl v s, ?_, hsup, (bound _).1 hle, fun c hc hs => hmax ⟨(bound c).2 hc, hs⟩,
    readOffset_ctrl_toNat _, rfl⟩
  rw [step_wordWrite s v (by decide) (by decide), writeOffset_ctrl, unlessBusy_of_idle s _ hb]

/-- Settles O9: CAP is a function of the platform, which no step changes. -/
theorem capIsConstant : Obligations.CapIsConstant := by
  refine ⟨readOffset_cap_getLsbD, fun s v => step_wordWrite s v (by decide) (by decide), fun s t h => ?_⟩
  rw [readOffset_cap, readOffset_cap, step_platform h]

/-- Settles O11: no register stands at a reserved offset, and each writable register takes its own field alone. -/
theorem reservedReadsZeroIgnoresWrites : Obligations.ReservedReadsZeroIgnoresWrites := by
  refine ⟨fun s off v hlo hhi h4 => ⟨readOffset_reserved s hlo, ?_⟩,
    fun s => ⟨readOffset_cap_reserved s, readOffset_ctrl_reserved s, ?_, ?_⟩,
    fun s v => step_wordWrite s v (by decide) (by decide), fun s v w h => ?_, fun s v w h => ?_,
    fun s off w v h hbad => step_misformed s v h hbad⟩
  · rw [step_wordWrite s v hhi h4, writeOffset_reserved s v hlo]
  · exact extractLsb'_eq_zero_of_getLsbD fun i hlo hhi => statusWord_getLsbD_reserved s (by omega)
  · exact extractLsb'_eq_zero_of_getLsbD fun i hlo hhi => statusWord_getLsbD_reserved s (by omega)
  · rw [step_wordWrite s v (by decide) (by decide), step_wordWrite s w (by decide) (by decide)]
    simp only [writeOffset_ctrl, setCtrl_congr h]
  · rw [step_wordWrite s v (by decide) (by decide), step_wordWrite s w (by decide) (by decide)]
    simp only [writeOffset_status, writeStatus_congr s h]

/-- Settles O6, by the register's own write: the guarded ones and CMD drop, STATUS is taken, the rest is ignored. -/
theorem busyDropsWrites : Obligations.BusyDropsWrites := by
  intro s off v hb
  refine ⟨fun hoff => ?_, fun hoff => ?_, fun hoff => ?_⟩
  · simp only [List.mem_cons, List.not_mem_nil, or_false] at hoff
    rw [step_wordWrite s v (by omega) (by omega)]
    rcases hoff with rfl | rfl | rfl | rfl | rfl <;>
      simp [unlessBusy_of_busy s _ hb, writeCmd_of_busy s v hb, State.dropWrite]
  · subst hoff
    rw [step_wordWrite s v (by decide) (by decide), writeOffset_status, writeStatus_eq]
  · rcases hoff with rfl | ⟨hlo, hhi, h4⟩
    · exact step_wordWrite s v (by decide) (by decide)
    · rw [step_wordWrite s v hhi h4, writeOffset_reserved s v hlo]

/-- Settles O10: a read leaves all but the readouts and the unobserved commands. -/
theorem registerReadsHaveNoSideEffect : Obligations.RegisterReadsHaveNoSideEffect := by
  refine ⟨fun s off h h4 => ?_, fun s => ⟨readOffset_cap s, readOffset_ctrl s, readOffset_src s,
    readOffset_dst s, readOffset_width s, readOffset_cmd s, readOffset_status s⟩⟩
  obtain ⟨l, hread⟩ := readAt_eq s off
  refine ⟨_, step_wordRead s h h4, ?_⟩
  rw [hread]
  exact ⟨rfl, ⟨rfl, rfl, rfl, rfl, rfl⟩, ⟨rfl, rfl, rfl⟩, rfl, rfl, rfl, rfl, rfl, rfl⟩

/-- Settles O12: a read in the window always answers, and a write can only be refused for its extents. -/
theorem misformedRegisterAccessRefused : Obligations.MisformedRegisterAccessRefused := by
  intro s off w v h
  refine ⟨step_misformed s v h, fun hw h4 => ?_⟩
  subst hw
  have hwrite := step_wordWrite s v h h4
  have hread := step_wordRead s h h4
  simp only [wordWrite, wordRead] at hwrite hread
  rw [hwrite, hread]
  refine ⟨?_, nofun⟩
  rcases writeOffset_cases s v off with e | ⟨t, e, -⟩ <;> rw [e] <;> nofun

end Sys2Proof.Proofs.Registers
end

section
/-! SUPPORT. The decoder (30_encoding.md R81 to R85): a word and its fields, and the one word of each command. -/

namespace Sys2Proof

/-- A word is its RSV field above its OP field (R81). -/
@[simp] theorem joinFields_splitFields (v : Word) : joinFields (splitFields v) = v := by
  refine BitVec.eq_of_getLsbD_eq fun i hi => ?_
  rw [joinFields, splitFields, BitVec.getLsbD_append]
  split_ifs with hlow
  · simp [hlow]
  · have hhigh : i - 4 < 28 := by omega
    simp [hhigh, Nat.add_sub_cancel' (Nat.le_of_not_lt hlow)]

theorem decodeOp_eq_ok_iff (op : BitVec 4) (i : Instr) : decodeOp op = .ok i ↔ op = i.fields.op := by
  unfold decodeOp
  split_ifs with h1 h2 h3
  · subst h1; cases i <;> decide
  · subst h2; cases i <;> decide
  · subst h3; cases i <;> decide
  · cases i <;> simp only [Instr.fields, h1, h2, h3]

/-- A word decodes to a command exactly when its fields are the command's (R81, R83). -/
theorem decode_eq_ok_iff_fields (v : Word) (i : Instr) : decode v = .ok i ↔ splitFields v = i.fields := by
  have hrsv : i.fields.rsv = 0 := by cases i <;> rfl
  have hfields : splitFields v = i.fields ↔ (splitFields v).op = i.fields.op ∧ (splitFields v).rsv = 0 := by
    rw [← hrsv, ← CmdFields.mk.injEq]
  rw [hfields, ← decodeOp_eq_ok_iff, decode]
  split_ifs with h
  · simp only [h, and_true]
  · simp only [h, and_false]

theorem decode_encode (i : Instr) : decode (encode i) = .ok i := by
  cases i <;> decide

/-- A word that decodes is its command's own word (R88). -/
theorem eq_encode_of_decode {v : Word} {i : Instr} (h : decode v = .ok i) : v = encode i := by
  rw [encode, ← (decode_eq_ok_iff_fields v i).1 h, joinFields_splitFields]

/-- A word other than the three of the table is no command (R85). -/
theorem decode_eq_error {v : Word} (h1 : v ≠ 1) (h2 : v ≠ 2) (h3 : v ≠ 3) : ∃ e, decode v = .error e := by
  cases hd : decode v with
  | error e => exact ⟨e, rfl⟩
  | ok i =>
    have hv := eq_encode_of_decode hd
    cases i with
    | pixel => exact absurd hv h1
    | block => exact absurd hv h2
    | row => exact absurd hv h3

end Sys2Proof
end

section
/-! SUPPORT. What a CMD write does at each check of 30_encoding.md R86, in its order. -/

namespace Sys2Proof.Machine

variable {s : State} {v : Word}

/-- A CMD write is the next event's work at its offset. -/
theorem step_cmdWrite (s : State) (v : Word) : step (s.withEvent (wordWrite 0x14 v)) = writeCmd v s :=
  step_wordWrite s v (by decide) (by decide)

theorem writeCmd_of_not_takes (v : Word) (h : ¬ TakesCommands s) : writeCmd v s = .next { s with drop := true } := by
  rcases writeCmd_cases s v with ⟨-, e⟩ | ⟨ht, -⟩
  · exact e
  · exact absurd ht h

/-- A word that is no command records IllegalCommand, before every other check (60_exceptions.md R171). -/
theorem writeCmd_of_illegal {e : DecodeError} (h : TakesCommands s) (hd : decode v = .error e) :
    writeCmd v s = .next (s.raise .illegalCommand) := by
  rw [writeCmd, hd]
  rcases rejectCommand_cases s with ⟨hn, -⟩ | ⟨-, r⟩
  · exact absurd h hn
  · exact r

theorem requestCommand_of_takes (go : State → Host.Outcome State Fault Refusal) (h : TakesCommands s) :
    requestCommand go s = go { s with doneFlag := false } := by
  rcases requestCommand_cases go s with ⟨hn, -⟩ | ⟨-, e⟩
  · exact absurd h hn
  · exact e

theorem pixelCount_row_eq_zero_iff (s : State) : pixelCount .row s = 0 ↔ s.width = 0 := by
  simp [pixelCount, ← BitVec.toNat_inj]

/-- The first check of ROW (R172). -/
theorem exec_of_zeroWidth (h : TakesCommands s) (hn : pixelCount .row s = 0) :
    exec .row s = .next (s.raise .zeroWidth) := by
  rw [exec, execRow, requestCommand_of_takes _ h, if_pos ((pixelCount_row_eq_zero_iff s).1 hn)]
  rfl

/-- The other checks, which the three commands share (R173, R174). -/
theorem exec_of_not_zeroWidth {i : Instr} (h : TakesCommands s) (hn : ¬ (i = .row ∧ pixelCount i s = 0)) :
    exec i s = admitCommand (latch i s) { s with doneFlag := false } := by
  cases i with
  | pixel => exact requestCommand_of_takes _ h
  | block => exact requestCommand_of_takes _ h
  | row =>
    have hw : s.width ≠ 0 := fun hw => hn ⟨rfl, (pixelCount_row_eq_zero_iff s).2 hw⟩
    rw [exec, execRow, requestCommand_of_takes _ h, if_neg hw]
    rfl

theorem outOfRange_iff (a b n : Nat) : outOfRange a b n = true ↔ a + 4 * n > 2 ^ 32 ∨ b + 4 * n > 2 ^ 32 := by
  simp [outOfRange]

theorem overlaps_iff (a b n : Nat) : overlaps a b n = true ↔ a < b + 4 * n ∧ b < a + 4 * n := by
  simp [overlaps]

theorem admitCommand_of_range {c : Latched}
    (h : c.src.toNat + 4 * c.count > 2 ^ 32 ∨ c.dst.toNat + 4 * c.count > 2 ^ 32) :
    admitCommand c s = .next (s.raise .range) :=
  if_pos ((outOfRange_iff _ _ _).2 h)

theorem admitCommand_of_overlap {c : Latched}
    (hr : ¬ (c.src.toNat + 4 * c.count > 2 ^ 32 ∨ c.dst.toNat + 4 * c.count > 2 ^ 32))
    (h : c.src.toNat < c.dst.toNat + 4 * c.count ∧ c.dst.toNat < c.src.toNat + 4 * c.count) :
    admitCommand c s = .next (s.raise .overlap) := by
  rw [admitCommand, if_neg (mt (outOfRange_iff _ _ _).1 hr), if_pos ((overlaps_iff _ _ _).2 h)]

theorem admitCommand_of_ordinary {c : Latched}
    (hr : ¬ (c.src.toNat + 4 * c.count > 2 ^ 32 ∨ c.dst.toNat + 4 * c.count > 2 ^ 32))
    (ho : ¬ (c.src.toNat < c.dst.toNat + 4 * c.count ∧ c.dst.toNat < c.src.toNat + 4 * c.count))
    (h : ExtentsOrdinary s.platform c.src.toNat c.dst.toNat c.count) :
    admitCommand c s = .next (accept c s) := by
  rw [admitCommand, if_neg (mt (outOfRange_iff _ _ _).1 hr), if_neg (mt (overlaps_iff _ _ _).1 ho), if_neg]
  simp [h.1, h.2]

/-- The checks of a command that is not dropped, in the order of 60_exceptions.md R175. -/
theorem exec_follows_checks (i : Instr) (ht : TakesCommands s) :
    let n := pixelCount i s
    if i = .row ∧ n = 0 then exec i s = .next (s.raise .zeroWidth)
    else if s.src.toNat + 4 * n > 2 ^ 32 ∨ s.dst.toNat + 4 * n > 2 ^ 32 then exec i s = .next (s.raise .range)
    else if s.src.toNat < s.dst.toNat + 4 * n ∧ s.dst.toNat < s.src.toNat + 4 * n then
      exec i s = .next (s.raise .overlap)
    else ExtentsOrdinary s.platform s.src.toNat s.dst.toNat n →
      exec i s = .next (accept (latch i s) { s with doneFlag := false }) := by
  intro n
  split_ifs with hzero hrange hoverlap
  · obtain ⟨rfl, hcount⟩ := hzero
    exact exec_of_zeroWidth ht hcount
  all_goals rw [exec_of_not_zeroWidth ht hzero]
  · exact admitCommand_of_range hrange
  · exact admitCommand_of_overlap hrange hoverlap
  · exact admitCommand_of_ordinary (s := { s with doneFlag := false }) (c := latch i s) hrange hoverlap

end Sys2Proof.Machine
end

section
/-! PROOF. The statements on the encoding and on the CMD write's checks (30_encoding.md R85, R86). -/

namespace Sys2Proof.Proofs.Encoding

open Sys2Proof Sys2Proof.Machine

/-- Settles O20: the three words of the table decode, and a request with any other word stops at the first check. -/
theorem decodeVerdicts : Obligations.DecodeVerdicts := by
  intro v
  refine ⟨?_, ?_, ?_, fun h1 h2 h3 => ?_⟩
  · rintro rfl; exact decode_encode .pixel
  · rintro rfl; exact decode_encode .block
  · rintro rfl; exact decode_encode .row
  · obtain ⟨e, hd⟩ := decode_eq_error h1 h2 h3
    exact ⟨⟨e, hd⟩, fun s ht => (step_cmdWrite s v).trans (writeCmd_of_illegal ht hd)⟩

/-- Settles O25: a request that is not dropped goes by its decoded word, and a command's by its checks. -/
theorem cmdWriteFollowsTheChecks : Obligations.CmdWriteFollowsTheChecks := by
  intro s v asked after
  have hafter : after = writeCmd v s := step_cmdWrite s v
  rw [hafter]
  split_ifs with hbusy herror
  · exact writeCmd_of_not_takes v fun ht => absurd hbusy (by simp [ht.1])
  · exact writeCmd_of_not_takes v fun ht => absurd herror (by simp [ht.2])
  have ht : TakesCommands s := ⟨by simpa using hbusy, by simpa using herror⟩
  cases hd : decode v with
  | error e =>
    have hasked : asked = none := by
      have hne (i : Instr) : v ≠ encode i := by rintro rfl; simp [decode_encode] at hd
      exact (if_neg (hne .pixel)).trans ((if_neg (hne .block)).trans (if_neg (hne .row)))
    rw [hasked]
    exact writeCmd_of_illegal ht hd
  | ok i =>
    have hasked : asked = some (i, pixelCount i s) := by
      obtain rfl := eq_encode_of_decode hd
      cases i <;> rfl
    have hwrite : writeCmd v s = exec i s := by rw [writeCmd, hd]
    rw [hasked, hwrite]
    exact exec_follows_checks i ht

end Sys2Proof.Proofs.Encoding
end

section
/-! SUPPORT. A running command ends (30_encoding.md R87, 70_reset_and_hazards.md R210): each unit lies in its command's
pixels, a work step leaves fewer units, no orderly event of the host's disturbs them, and so the work left falls. -/

namespace Sys2Proof.Machine

/-! The units lie within the command's pixels (41_row_driver.md R140 to R142). -/

theorem WorkUnit.pixels_pos {b : Nat} (hb : 0 < b) (u : WorkUnit) : 0 < u.pixels b := by
  cases u with
  | block k => exact hb
  | scalar i => exact Nat.one_pos

theorem prefixPixels_le (n b : Nat) : prefixPixels n b ≤ n := by
  rw [prefixPixels, BitVec.toNat_and]
  exact Nat.and_le_left.trans (by rw [BitVec.toNat_ofNat]; exact Nat.mod_le _ _)

theorem splitUnits_within {n b : Nat} {u : WorkUnit} (h : u ∈ splitUnits n b) : u.first b + u.pixels b ≤ n := by
  have hprefix := prefixPixels_le n b
  simp only [splitUnits, List.mem_append, List.mem_map, List.mem_range] at h
  rcases h with ⟨k, hk, rfl⟩ | ⟨j, hj, rfl⟩
  · calc k * b + b = (k + 1) * b := by ring
      _ ≤ prefixPixels n b / b * b := Nat.mul_le_mul_right b hk
      _ ≤ prefixPixels n b := Nat.div_mul_le_self _ _
      _ ≤ n := hprefix
  · simp only [WorkUnit.first, WorkUnit.pixels]
    omega

theorem Latched.units_within {c : Latched} {u : WorkUnit} (h : u ∈ c.units) :
    u.first c.lanes + u.pixels c.lanes ≤ c.count := by
  unfold Latched.units at h
  split at h
  · obtain ⟨i, hi, rfl⟩ := List.mem_map.1 h
    exact List.mem_range.1 hi
  · exact splitUnits_within h
  · exact splitUnits_within h

theorem Latched.units_first_lt {c : Latched} {u : WorkUnit} (h : u ∈ c.units) : u.first c.lanes < c.count := by
  have hpos := u.pixels_pos c.lanes_pos
  have hle := Latched.units_within h
  omega

/-- A command that passed the Range check never reaches beyond the address space (60_exceptions.md R174). -/
theorem Latched.unitInSpace_of_inRange {c : Latched} {u : WorkUnit} (h : u ∈ c.units)
    (hr : outOfRange c.src.toNat c.dst.toNat c.count = false) : c.unitInSpace u = true := by
  have hle := Latched.units_within h
  rw [outOfRange_eq_false] at hr
  rw [Latched.unitInSpace, Latched.sourceAddr, Latched.destAddr, Bool.and_eq_true, decide_eq_true_eq, decide_eq_true_eq]
  omega

/-! The pending units. -/

/-- With every index in done_set no unit is pending (R87). -/
theorem Running.pending_of_all_done {r : Running} (h : ∀ i, i < r.cmd.count → r.isDone i = true) :
    r.pending = [] := by
  rw [Running.pending, List.filter_eq_nil_iff]
  intro u hu
  simp [h _ (Latched.units_first_lt hu)]

theorem Running.pending_congr {r r' : Running} (hc : r'.cmd = r.cmd) (hd : r'.done = r.done) :
    r'.pending = r.pending := by
  simp only [Running.pending, Running.isDone, hc, hd]

/-- A work step adds the unit's pixels to done_set and leaves the rest of the running command (R140). -/
theorem performUnit_engine (r : Running) (u : WorkUnit) (s : State) :
    ∃ r', (s.performUnit r u).engine = some r' ∧ r'.cmd = r.cmd ∧ ∀ i, r'.isDone i = true ↔
      r.isDone i = true ∨ ∃ j, j < u.pixels r.cmd.lanes ∧ u.first r.cmd.lanes + j = i := by
  refine ⟨_, rfl, rfl, fun i => ?_⟩
  simp [Running.isDone, List.any_append]

/-- More of done_set with the first index of a pending unit leaves fewer units pending. -/
theorem Running.pending_length_lt {r r' : Running} {u : WorkUnit} (hc : r'.cmd = r.cmd)
    (hmono : ∀ i, r.isDone i = true → r'.isDone i = true) (hu : u ∈ r.pending)
    (hdone : r'.isDone (u.first r.cmd.lanes) = true) : r'.pending.length < r.pending.length := by
  have hfilter : r'.pending = r.pending.filter fun w => !r'.isDone (w.first r.cmd.lanes) := by
    rw [Running.pending, Running.pending, List.filter_filter, hc]
    refine List.filter_congr fun w _ => ?_
    cases hw : r.isDone (w.first r.cmd.lanes) with
    | false => simp
    | true => simp [hmono _ hw]
  rw [hfilter, List.length_filter_lt_length_iff_exists]
  exact ⟨u, hu, by simp [hdone]⟩

/-! A command under way, and the work left before its end. -/

/-- A command under way: it passed the Range check, no error is pending (60_exceptions.md R180), and the events to come
are orderly. -/
structure Underway (s : State) (r : Running) : Prop where
  engine  : s.engine = some r
  noError : s.error = none
  inRange : outOfRange r.cmd.src.toNat r.cmd.dst.toNat r.cmd.count = false
  orderly : HostOrderly s

/-- The ways a started command ends (R87): DONE, or BusFault. -/
def CommandEnded (t : State) : Prop :=
  t.busy = false ∧ (t.doneFlag = true ∧ t.error = none ∨ t.doneFlag = false ∧ t.error = some .busFault)

/-- What bounds the steps before the end: the events to come and the units pending. -/
def workLeft (s : State) (r : Running) : Nat := s.events.length + r.pending.length

/-- The command has ended, or it is under way with less work left than the bound. -/
def Progress (bound : Nat) (t : State) : Prop :=
  CommandEnded t ∨ ∃ r, Underway t r ∧ workLeft t r < bound

theorem Progress.mono {m n : Nat} {t : State} (h : Progress m t) (hmn : m ≤ n) : Progress n t :=
  h.imp_right fun ⟨r, hu, hw⟩ => ⟨r, hu, hw.trans_le hmn⟩

theorem HostOrderly.of_sublist {s t : State} (h : HostOrderly s) (he : t.events.Sublist s.events)
    (hp : t.platform = s.platform) : HostOrderly t := by
  intro e hmem
  rw [hp]
  exact h e (he.subset hmem)

theorem complete_ended {s : State} (r : Running) (h : s.error = none) : CommandEnded (s.complete r) :=
  ⟨rfl, .inl ⟨rfl, h⟩⟩

theorem busFault_ended (s : State) (r : Running) : CommandEnded (s.busFault r) :=
  ⟨rfl, .inr ⟨rfl, rfl⟩⟩

theorem performUnit_progress {s : State} {r : Running} {u : WorkUnit} (h : Underway s r) (hu : u ∈ r.pending) :
    Progress (workLeft s r) (s.performUnit r u) := by
  obtain ⟨r', he, hcmd, hdone⟩ := performUnit_engine r u s
  refine .inr ⟨r', ⟨he, h.noError, hcmd ▸ h.inRange, h.orderly.of_sublist (.refl _) rfl⟩, ?_⟩
  have hfirst : r'.isDone (u.first r.cmd.lanes) = true := (hdone _).2 (.inr ⟨0, u.pixels_pos r.cmd.lanes_pos, rfl⟩)
  have hfewer := Running.pending_length_lt hcmd (fun i hi => (hdone i).2 (.inl hi)) hu hfirst
  exact Nat.add_lt_add_left hfewer s.events.length

/-- Every step of the engine ends its command or leaves less of it, whatever its choice (20_memory.md R61). -/
theorem engineStep_progress {s : State} {r : Running} (k : Nat) (h : Underway s r) :
    ∃ t, engineStep k s = .next t ∧ Progress (workLeft s r) t := by
  rcases engineStep_cases k s with ⟨hidle, -⟩ | ⟨r', he, hcases⟩
  · rw [h.engine] at hidle; cases hidle
  obtain rfl : r = r' := Option.some.inj (h.engine.symm.trans he)
  rcases hcases with ⟨-, e⟩ | ⟨u, -, hu, hpend, ⟨hout, -⟩ | ⟨-, -, e⟩ | ⟨-, -, e⟩⟩
  · exact ⟨_, e, .inl (complete_ended r h.noError)⟩
  · rw [Latched.unitInSpace_of_inRange hu h.inRange] at hout; cases hout
  · exact ⟨_, e, performUnit_progress h (List.mem_filter.2 ⟨hu, by simp [hpend]⟩)⟩
  · exact ⟨_, e, .inl (busFault_ended s r)⟩

/-! The host's events while a command runs. -/

/-- The update leaves a command under way as it is: its units done and pending, no error, the platform; events can only
go. -/
def KeepsCommand (s t : State) : Prop :=
  t.platform = s.platform ∧ (s.error = none → t.error = none) ∧ t.events.Sublist s.events
    ∧ ∀ r, s.engine = some r → ∃ r', t.engine = some r' ∧ r'.cmd = r.cmd ∧ r'.done = r.done

theorem KeepsCommand.of_engine_eq {s t : State} (hp : t.platform = s.platform) (hx : s.error = none → t.error = none)
    (he : t.events.Sublist s.events) (hr : t.engine = s.engine) : KeepsCommand s t :=
  ⟨hp, hx, he, fun r h => ⟨r, hr.trans h, rfl, rfl⟩⟩

theorem KeepsCommand.refl (s : State) : KeepsCommand s s := .of_engine_eq rfl id (.refl _) rfl

theorem KeepsCommand.progress {s t : State} {r : Running} (h : KeepsCommand s t) (hu : Underway s r) :
    Progress (workLeft s r + 1) t := by
  obtain ⟨hp, hx, he, hr⟩ := h
  obtain ⟨r', hr', hcmd, hdone⟩ := hr r hu.engine
  refine .inr ⟨r', ⟨hr', hx hu.noError, hcmd ▸ hu.inRange, hu.orderly.of_sublist he hp⟩, ?_⟩
  rw [workLeft, workLeft, Running.pending_congr hcmd hdone]
  have hlen := he.length_le
  omega

/-- While BUSY a register write is dropped, ignored, or one of STATUS (10_state.md R33). -/
theorem writeOffset_keeps {s : State} (off : Nat) (v : Word) (hb : s.busy = true) :
    ∃ t, writeOffset off v s = .next t ∧ KeepsCommand s t := by
  have hdrop : KeepsCommand s s.dropWrite := .of_engine_eq rfl id (.refl _) rfl
  have hguard (f : State → State) : KeepsCommand s (unlessBusy f s) := by
    rw [unlessBusy_of_busy s f hb]; exact hdrop
  unfold writeOffset
  cases regAt off with
  | none => exact ⟨s, rfl, .refl s⟩
  | some reg =>
    cases reg with
    | cap => exact ⟨s, rfl, .refl s⟩
    | ctrl => exact ⟨_, rfl, hguard _⟩
    | src => exact ⟨_, rfl, hguard _⟩
    | dst => exact ⟨_, rfl, hguard _⟩
    | width => exact ⟨_, rfl, hguard _⟩
    | cmd => exact ⟨_, writeCmd_of_busy s v hb, hdrop⟩
    | status =>
      refine ⟨_, rfl, ?_⟩
      rw [writeStatus_eq]
      exact .of_engine_eq rfl (fun hx => by simp [hx]) (.refl _) rfl

theorem readAt_keeps (off : Nat) (s : State) : KeepsCommand s (readAt off s) := by
  obtain ⟨l, e⟩ := readAt_eq s off
  rw [e]
  exact .of_engine_eq rfl id (.refl _) rfl

theorem hostWrite_keeps {s : State} {x : HostAddr} {w : AccessWidth} (v : Word) (hb : s.busy = true)
    (h : resolveAccess s.platform x w ≠ .misformed) : ∃ t, hostWrite x w v s = .next t ∧ KeepsCommand s t := by
  unfold hostWrite
  split
  · exact ⟨s, rfl, .refl s⟩
  · contradiction
  · exact writeOffset_keeps _ v hb

theorem hostRead_keeps {s : State} {x : HostAddr} {w : AccessWidth} (h : resolveAccess s.platform x w ≠ .misformed) :
    ∃ t, hostRead x w s = .next t ∧ KeepsCommand s t := by
  unfold hostRead
  split
  · exact ⟨s, rfl, .refl s⟩
  · contradiction
  · exact ⟨_, rfl, readAt_keeps _ s⟩

theorem hostMemRead_keeps {s : State} {a : Addr} (h : sideEffecting s.platform a.toNat = false) :
    ∃ t, hostMemRead a s = .next t ∧ KeepsCommand s t := by
  rw [hostMemRead, h]
  exact ⟨_, rfl, .of_engine_eq rfl id (.refl _) rfl⟩

theorem Running.logWrite_cmd_done (a : Nat) (v : Byte) (r : Running) :
    (r.logWrite a v).cmd = r.cmd ∧ (r.logWrite a v).done = r.done := by
  unfold Running.logWrite
  split <;> exact ⟨rfl, rfl⟩

/-- A racing write is logged with the command and disturbs none of its units (20_memory.md R64). -/
theorem hostMemWrite_keeps {s : State} {a : Addr} (v : Byte) (h : sideEffecting s.platform a.toNat = false) :
    ∃ t, hostMemWrite a v s = .next t ∧ KeepsCommand s t := by
  rw [hostMemWrite, h]
  refine ⟨_, rfl, rfl, id, .refl _, fun r hr => ?_⟩
  exact ⟨_, congrArg (Option.map _) hr, Running.logWrite_cmd_done ..⟩

theorem hostRequire_keeps (s : State) : KeepsCommand s (hostRequire s) := by
  rcases hostRequire_cases s with e | e <;> rw [e]
  · exact .refl s
  · exact .of_engine_eq rfl id List.filter_sublist rfl

/-! The step of a command under way, and its end. -/

/-- An event taken leaves less work, but for `wait`, which stays until the engine ends (R90). -/
theorem perform_progress {s : State} {r : Running} {e : Event} (h : Underway s r) (he : e.isTaken s.platform = true)
    (hreset : e.isReset = false) (hwait : e ≠ .wait) :
    ∃ t, perform e s = .next t ∧ Progress (workLeft s r + 1) t := by
  have hb : s.busy = true := by rw [State.busy, h.engine]; rfl
  have of_keeps {o : Host.Outcome State Fault Refusal} :
      (∃ t, o = .next t ∧ KeepsCommand s t) → ∃ t, o = .next t ∧ Progress (workLeft s r + 1) t :=
    fun ⟨t, ho, hk⟩ => ⟨t, ho, hk.progress h⟩
  cases e with
  | regWrite x w v => exact of_keeps (hostWrite_keeps v hb (by simpa [Event.isTaken] using he))
  | regRead x w => exact of_keeps (hostRead_keeps (by simpa [Event.isTaken] using he))
  | memWrite a v => exact of_keeps (hostMemWrite_keeps v (by simpa [Event.isTaken] using he))
  | memRead a => exact of_keeps (hostMemRead_keeps (by simpa [Event.isTaken] using he))
  | wait => exact absurd rfl hwait
  | requireDone => exact of_keeps ⟨_, rfl, hostRequire_keeps s⟩
  | reset => cases hreset
  | engine k =>
    obtain ⟨t, ht, hp⟩ := engineStep_progress k h
    exact ⟨t, ht, hp.mono (Nat.le_succ _)⟩

/-- `wait` while BUSY is a step of the engine, with the event still to come (R90). -/
theorem step_wait_of_busy {s : State} {rest : List Event} (he : s.events = .wait :: rest) (hb : s.busy = true) :
    step s = engineStep 0 s := by
  rw [step_of_events he]
  refine (if_pos hb).trans ?_
  rw [← he]

theorem step_progress {s : State} {r : Running} (h : Underway s r) :
    ∃ t, step s = .next t ∧ Progress (workLeft s r) t := by
  cases he : s.events with
  | nil => rw [step_of_no_events he]; exact engineStep_progress 0 h
  | cons e rest =>
    by_cases hwait : e = .wait
    · subst hwait
      rw [step_wait_of_busy he (by rw [State.busy, h.engine]; rfl)]
      exact engineStep_progress 0 h
    · obtain ⟨htaken, hreset⟩ := h.orderly e (by simp [he])
      have hrest : Underway { s with events := rest } r :=
        ⟨h.engine, h.noError, h.inRange, h.orderly.of_sublist (by simp [he]) rfl⟩
      have hwork : workLeft { s with events := rest } r + 1 = workLeft s r := by
        simp only [workLeft, he, List.length_cons]; omega
      rw [step_of_events he, ← hwork]
      exact perform_progress hrest htaken hreset hwait

/-- The work left falls with every step until the command ends. -/
theorem underway_ends (s : State) (r : Running) (h : Underway s r) :
    ∃ k t, runSteps k s = .next t ∧ CommandEnded t := by
  induction hn : workLeft s r using Nat.strong_induction_on generalizing s r with
  | _ n ih =>
    obtain ⟨t, hstep, hend | ⟨r', hu, hlt⟩⟩ := step_progress h
    · exact ⟨1, t, by simp only [runSteps, hstep], hend⟩
    · obtain ⟨k, t', hrun, hend⟩ := ih _ (hn ▸ hlt) t r' hu rfl
      exact ⟨k + 1, t', by simp only [runSteps, hstep, hrun], hend⟩

/-- A command of the invariant is under way (60_exceptions.md R174, R180). -/
theorem Inv.underway {s : State} (h : Inv s) (ho : HostOrderly s) {r : Running} (hr : s.engine = some r) :
    Underway s r :=
  ⟨hr, h.busyErr (by rw [State.busy, hr]; rfl), (h.running r hr).inRange, ho⟩

end Sys2Proof.Machine
end

section
/-! PROOF. The statement on the end of a command (30_encoding.md R87). -/

namespace Sys2Proof.Proofs.Termination

open Sys2Proof Sys2Proof.Machine

/-- Settles O37: with a full done_set nothing is pending; otherwise events to come and pending units bound the steps. -/
theorem runningCommandEnds : Obligations.RunningCommandEnds := by
  refine ⟨fun s r k hr hall => ?_, fun s hinv hb ho => ?_⟩
  · have hnone : r.nextUnit k = none := Running.nextUnit_eq_none.2 (Running.pending_of_all_done hall)
    exact ⟨s.complete r, by simp only [engineStep, hr, hnone], rfl, rfl, rfl⟩
  · obtain ⟨r, hr⟩ := Option.isSome_iff_exists.1 hb
    exact underway_ends s r (hinv.underway ho hr)

end Sys2Proof.Proofs.Termination
end

section
/-! SUPPORT. The datapath on natural numbers (40_pixelblock_transform.md R101 to R103), and the lanes of a block by the
per-pixel transform P (R106 to R108). -/

namespace Sys2Proof.Machine

/-! The luma function. -/

/-- The accumulator of three bytes does not wrap at 16 bits. -/
theorem accumulate_toNat (b g r : Byte) :
    (accumulate b g r).toNat = 77 * r.toNat + 150 * g.toNat + 29 * b.toNat + 128 := by
  unfold accumulate weightR weightG weightB roundingBias
  bv_omega

theorem saturate_toNat (x : Acc) : (saturate x).toNat = min 255 x.toNat := by
  unfold saturate
  split
  · rw [min_eq_left (by omega)]; rfl
  · rw [min_eq_right (by omega), BitVec.toNat_setWidth, Nat.mod_eq_of_lt (by omega)]

theorem luma_toNat (b g r : Byte) : (luma b g r).toNat = min 255 ((accumulate b g r).toNat >>> 8) := by
  rw [luma, saturate_toNat, BitVec.toNat_ushiftRight]

theorem accumulate_toNat_le (b g r : Byte) : (accumulate b g r).toNat ≤ 65408 := by
  rw [accumulate_toNat]; omega

/-- The clamp never fires (R102). -/
theorem accumulate_toNat_shiftRight_le (b g r : Byte) : (accumulate b g r).toNat >>> 8 ≤ 255 := by
  have h := accumulate_toNat_le b g r
  rw [Nat.shiftRight_eq_div_pow]; omega

theorem luma_toNat_eq_shiftRight (b g r : Byte) : (luma b g r).toNat = (accumulate b g r).toNat >>> 8 := by
  rw [luma_toNat, min_eq_right (accumulate_toNat_shiftRight_le b g r)]

/-- A gray pixel's sum is `256 v + 128`: the weights add to 256, and the bias is shifted out. -/
theorem luma_self (v : Byte) : luma v v v = v := by
  apply BitVec.eq_of_toNat_eq
  rw [luma_toNat_eq_shiftRight, accumulate_toNat, Nat.shiftRight_eq_div_pow]; omega

theorem luma_mono {b b' g g' r r' : Byte} (hb : b.toNat ≤ b'.toNat) (hg : g.toNat ≤ g'.toNat)
    (hr : r.toNat ≤ r'.toNat) : (luma b g r).toNat ≤ (luma b' g' r').toNat := by
  have hsum : (accumulate b g r).toNat ≤ (accumulate b' g' r').toNat := by
    simp only [accumulate_toNat]; omega
  simpa only [luma_toNat_eq_shiftRight, Nat.shiftRight_eq_div_pow] using Nat.div_le_div_right hsum

/-! The transform P, and the lanes of T_B. -/

theorem repack_gray (y : Byte) : (repack y).gray = y := luma_self y

/-- Alpha does not enter P (R105). -/
theorem Pixel.transform_congr {p q : Pixel} (hb : p.b = q.b) (hg : p.g = q.g) (hr : p.r = q.r) :
    p.transform = q.transform := by
  simp only [Pixel.transform, Pixel.gray, hb, hg, hr]

/-- P is idempotent: the gray byte of a repacked pixel is the byte it was made of. -/
theorem Pixel.transform_transform (p : Pixel) : p.transform.transform = p.transform :=
  congrArg repack (repack_gray p.gray)

/-- Lane j's four bytes of T_B are P of the lane's pixel (R108). -/
theorem transformBlock_lane (x : List Byte) {b j : Nat} (hj : j < b) :
    ((transformBlock b x).drop (4 * j)).take 4 = (lanePixel x j).transform.bytes := by
  apply List.ext_getElem?
  intro k
  by_cases hk : k < 4
  · rw [List.getElem?_take_of_lt hk, List.getElem?_drop, transformBlock_getElem? b x j k hj hk]
  · rw [List.getElem?_take_eq_none (by omega), List.getElem?_eq_none (by rw [Pixel.bytes_length]; omega)]

/-- Lanes with the same first three bytes hold pixels with the same transform. -/
theorem lanePixel_transform_congr {x y : List Byte} {j j' : Nat}
    (h : ∀ k, k < 3 → x.getD (4 * j + k) 0 = y.getD (4 * j' + k) 0) :
    (lanePixel x j).transform = (lanePixel y j').transform :=
  Pixel.transform_congr (h 0 (by omega)) (h 1 (by omega)) (h 2 (by omega))

end Sys2Proof.Machine
end

section
/-! PROOF. The statements on the datapath (40_pixelblock_transform.md R101, R102, R106, R112). -/

namespace Sys2Proof.Proofs.Datapath

open Sys2Proof Sys2Proof.Machine

/-- Settles O16: the sum of three weighted bytes fits 16 bits, so the lane computes on natural numbers. -/
theorem lumaIsTheExactFormula : Obligations.LumaIsTheExactFormula := by
  intro b g r
  exact ⟨accumulate_toNat b g r, by rw [luma_toNat, accumulate_toNat]⟩

/-- Settles O17: every fact is one about the exact sum, whose weights are positive and add to 256. -/
theorem lumaRangeFacts : Obligations.LumaRangeFacts := by
  refine ⟨fun b g r => ⟨?_, accumulate_toNat_le b g r, accumulate_toNat_shiftRight_le b g r⟩, by decide, by decide,
    luma_self, fun _ _ _ _ _ _ => luma_mono⟩
  rw [accumulate_toNat]; omega

/-- Settles O18: both lanes are P of their own pixel, and P does not read alpha. -/
theorem lanesAreIndependent : Obligations.LanesAreIndependent := by
  intro x y b b' j j' hj hj' hxy
  rw [transformBlock_lane x hj, transformBlock_lane y hj', lanePixel_transform_congr hxy]

/-- Settles O19: P repacks one gray byte with alpha 0xFF, and T_B is P lane by lane. -/
theorem transformProperties : Obligations.TransformProperties :=
  ⟨fun p => ⟨rfl, rfl, rfl, p.transform_transform⟩, fun x _ _ hj => transformBlock_lane x hj⟩

end Sys2Proof.Proofs.Datapath
end

section
/-! SUPPORT. The split of a row (41_row_driver.md R141, R142): the prefix as the multiple of B below W, the units it and
the remainder give, and the tiling of a range by blocks. -/

namespace Sys2Proof.Machine

theorem blockSize_le (c : Fin 5) : blockSize c ≤ 32 := by
  obtain ⟨k, hk, hb⟩ := blockSize_eq_two_pow c
  exact hb ▸ Nat.pow_le_pow_right two_pos hk

/-- The mask of R141 clears the k low bits, which leaves the multiple of 2^k. -/
theorem prefixPixels_two_pow {n k : Nat} (hn : n < 2 ^ 32) : prefixPixels n (2 ^ k) = 2 ^ k * (n / 2 ^ k) := by
  apply Nat.eq_of_testBit_eq
  intro i
  rw [prefixPixels, BitVec.testBit_toNat, Nat.testBit_two_pow_mul, Nat.testBit_div_two_pow]
  simp only [BitVec.getLsbD_and, BitVec.getLsbD_not, BitVec.getLsbD_ofNat, Nat.testBit_two_pow_sub_one]
  by_cases hi : i < 32
  · by_cases hk : k ≤ i
    · simp [hi, hk, Nat.sub_add_cancel hk]
    · simp [hi, hk, Nat.lt_of_not_le hk]
  · have hzero : n.testBit i = false :=
      Nat.testBit_lt_two_pow (hn.trans_le (Nat.pow_le_pow_right two_pos (not_lt.1 hi)))
    by_cases hk : k ≤ i
    · simp [hi, hk, Nat.sub_add_cancel hk, hzero]
    · simp [hi, hk]

/-- nb = B * floor(W / B) (R141). -/
theorem prefixPixels_blockSize {n : Nat} (hn : n < 2 ^ 32) (c : Fin 5) :
    prefixPixels n (blockSize c) = blockSize c * (n / blockSize c) := by
  obtain ⟨k, -, hb⟩ := blockSize_eq_two_pow c
  rw [hb, prefixPixels_two_pow hn]

theorem prefixPixels_div_blockSize {n : Nat} (hn : n < 2 ^ 32) (c : Fin 5) :
    prefixPixels n (blockSize c) / blockSize c = n / blockSize c := by
  rw [prefixPixels_blockSize hn, Nat.mul_div_cancel_left _ (blockSize_pos c)]

/-- The remainder has W mod B pixels (R142). -/
theorem sub_prefixPixels_blockSize {n : Nat} (hn : n < 2 ^ 32) (c : Fin 5) :
    n - prefixPixels n (blockSize c) = n % blockSize c := by
  rw [prefixPixels_blockSize hn, Nat.mod_eq_sub_mul_div]

/-- W mod B is W & (B - 1), for B is a power of two (R142). -/
theorem mod_blockSize_eq_and (n : Nat) (c : Fin 5) : n % blockSize c = n &&& (blockSize c - 1) := by
  obtain ⟨k, -, hb⟩ := blockSize_eq_two_pow c
  rw [hb, Nat.and_two_pow_sub_one_eq_mod]

/-- The split by quotient and remainder (R141, R142). -/
theorem splitUnits_blockSize {n : Nat} (hn : n < 2 ^ 32) (c : Fin 5) :
    splitUnits n (blockSize c) = (List.range (n / blockSize c)).map .block
      ++ (List.range (n % blockSize c)).map fun j => .scalar (prefixPixels n (blockSize c) + j) := by
  rw [splitUnits, prefixPixels_div_blockSize hn, sub_prefixPixels_blockSize hn]

/-- A row narrower than a block is all remainder (R145). -/
theorem splitUnits_of_lt_blockSize {n : Nat} {c : Fin 5} (h : n < blockSize c) :
    splitUnits n (blockSize c) = (List.range n).map .scalar := by
  have hn : n < 2 ^ 32 := (h.trans_le (blockSize_le c)).trans (by norm_num)
  rw [splitUnits_blockSize hn, prefixPixels_blockSize hn, Nat.div_eq_of_lt h, Nat.mod_eq_of_lt h]
  simp

/-- With 1-lane blocks the remainder is empty (R144). -/
theorem splitUnits_one {n : Nat} (hn : n < 2 ^ 32) : splitUnits n 1 = (List.range n).map .block := by
  have h := splitUnits_blockSize hn 0
  rw [show blockSize 0 = 1 from rfl, Nat.div_one, Nat.mod_one] at h
  simpa using h

/-- The scalar units of a split are those of its remainder. -/
theorem filter_isScalar_splitUnits {n : Nat} (hn : n < 2 ^ 32) (c : Fin 5) :
    (splitUnits n (blockSize c)).filter WorkUnit.isScalar
      = (List.range (n % blockSize c)).map fun j => .scalar (prefixPixels n (blockSize c) + j) := by
  have hblocks : ∀ u ∈ (List.range (n / blockSize c)).map WorkUnit.block, ¬ u.isScalar = true := by
    simp [WorkUnit.isScalar]
  have hscalars : ∀ u ∈ (List.range (n % blockSize c)).map
      (fun j => WorkUnit.scalar (prefixPixels n (blockSize c) + j)), u.isScalar = true := by
    simp [WorkUnit.isScalar]
  rw [splitUnits_blockSize hn, List.filter_append, List.filter_eq_nil_iff.2 hblocks, List.filter_eq_self.2 hscalars,
    List.nil_append]

/-- m blocks of b indices, one after the other, are the indices below m * b. -/
theorem flatMap_blocks_eq_range (m b : Nat) :
    (List.range m).flatMap (fun k => (List.range b).map fun j => k * b + j) = List.range (m * b) := by
  induction m with
  | zero => simp
  | succ m ih => rw [List.range_succ, List.flatMap_append, ih, List.flatMap_singleton, Nat.succ_mul, List.range_add]

/-- The blocks of the prefix tile it in order (R141). -/
theorem flatMap_prefix_blocks {n : Nat} (hn : n < 2 ^ 32) (c : Fin 5) :
    (List.range (prefixPixels n (blockSize c) / blockSize c)).flatMap
        (fun k => (List.range (blockSize c)).map fun j => k * blockSize c + j)
      = List.range (prefixPixels n (blockSize c)) := by
  rw [flatMap_blocks_eq_range, prefixPixels_div_blockSize hn, prefixPixels_blockSize hn, Nat.mul_comm]

theorem Latched.sourceAddr_block (c : Latched) (k : Nat) :
    c.sourceAddr ((WorkUnit.block k).first c.lanes) = c.src.toNat + 4 * k * c.lanes := by
  rw [Latched.sourceAddr, WorkUnit.first, Nat.mul_assoc]

theorem Latched.destAddr_block (c : Latched) (k : Nat) :
    c.destAddr ((WorkUnit.block k).first c.lanes) = c.dst.toNat + 4 * k * c.lanes := by
  rw [Latched.destAddr, WorkUnit.first, Nat.mul_assoc]

/-- T_B of one lane is P of its pixel (40_pixelblock_transform.md R106, R108). -/
theorem transformBlock_one (x : List Byte) : transformBlock 1 x = (lanePixel x 0).transform.bytes := by
  rw [transformBlock, List.range_one, List.flatMap_singleton]

end Sys2Proof.Machine
end

section
/-! PROOF. The statements on the split of a row (41_row_driver.md R141, R142, R144, R145, R148). -/

namespace Sys2Proof.Proofs.RowSplit

open Sys2Proof Sys2Proof.Machine

/-- Settles O31: B is a power of two, so the mask leaves B * floor(W / B), which floor(W / B) blocks tile. -/
theorem prefixIsWholeBlocks : Obligations.PrefixIsWholeBlocks :=
  ⟨fun _ c hn => ⟨rfl, prefixPixels_blockSize hn c, flatMap_prefix_blocks hn c⟩,
    fun c k => ⟨c.sourceAddr_block k, c.destAddr_block k, rfl⟩⟩

/-- Settles O33: the split by quotient and remainder; B = 1 leaves remainder 0, and W < B quotient 0. -/
theorem remainderIsScalar : Obligations.RemainderIsScalar :=
  ⟨fun _ c hn => filter_isScalar_splitUnits hn c,
    fun n c => ⟨mod_blockSize_eq_and n c, Nat.mod_lt n (blockSize_pos c)⟩,
    fun _ _ _ => rfl,
    fun _ hn => splitUnits_one hn,
    fun _ _ x => transformBlock_one x,
    fun _ _ h => splitUnits_of_lt_blockSize h⟩

/-- Settles O34, by computing the mask of each row of the table. -/
theorem workedSplitCounts : Obligations.WorkedSplitCounts := by
  unfold Obligations.WorkedSplitCounts
  decide

end Sys2Proof.Proofs.RowSplit
end

section
/-! SUPPORT. The error state as the host sees it and acts on it: ERRCODE in STATUS (10_state.md R28), and the writes that
a pending error does not block (60_exceptions.md R180). -/

namespace Sys2Proof.Machine

variable (s : State) (v : Word)

/-- ERRCODE is bits 11:8 of STATUS (R28). -/
theorem statusWord_errcode : (statusWord s).extractLsb' 8 4 = errcodeField s.error := by
  ext i hi
  simp only [statusWord, BitVec.getElem_extractLsb', BitVec.getLsbD_append]
  simp [BitVec.getLsbD_eq_getElem, hi]

/-- While BUSY = 0 a write of an operand register or of CTRL is taken, whatever ERR is (R180). -/
theorem step_guardedWrite_of_idle {off : Nat} {f : State → State} (hb : s.busy = false) (h : off < 0x100)
    (h4 : off % 4 = 0) (hf : writeOffset off v s = .next (unlessBusy f s)) :
    step (s.withEvent (wordWrite off v)) = .next (f s) := by
  rw [step_wordWrite s v h h4, hf, unlessBusy_of_idle s f hb]

end Sys2Proof.Machine
end

section
/-! PROOF. The statements on the errors of a request, a pending error and its acknowledgement (60_exceptions.md R177,
R179, R180). -/

namespace Sys2Proof.Proofs.Errors

open Sys2Proof Sys2Proof.Machine

/-- Settles O26: of the ways a taken request can end, only a recorded error leaves ERR = 1, and it records one of the
errors 1 to 4. -/
theorem requestErrorsArePrecise : Obligations.RequestErrorsArePrecise := by
  intro s t v e ht hstep herr
  rw [step_cmdWrite] at hstep
  rcases writeCmd_cases s v with ⟨hn, -⟩ | ⟨-, ⟨e', hne, h⟩ | h | ⟨i, -, h⟩⟩
  · exact absurd ht hn
  · cases h.symm.trans hstep
    cases herr
    exact ⟨rfl, hne⟩
  · cases h.symm.trans hstep
  · cases h.symm.trans hstep
    exact nomatch ht.2.symm.trans herr

/-- Settles O27: a request needs ERR = 0 to be taken, and the guard of the other writes looks at BUSY alone. -/
theorem pendingErrorBlocksCommands : Obligations.PendingErrorBlocksCommands := by
  intro s v herr
  have hdropped : ¬ TakesCommands s := fun ht => by simp [ht.2] at herr
  refine ⟨(step_cmdWrite s v).trans (writeCmd_of_not_takes v hdropped),
    fun hb => ⟨⟨setCtrl v s, ?_, rfl, rfl⟩, ?_, ?_, ?_⟩⟩
  · exact step_guardedWrite_of_idle s v hb (by decide) (by decide) (writeOffset_ctrl s v)
  · exact step_guardedWrite_of_idle s v hb (by decide) (by decide) (writeOffset_src s v)
  · exact step_guardedWrite_of_idle s v hb (by decide) (by decide) (writeOffset_dst s v)
  · exact step_guardedWrite_of_idle s v hb (by decide) (by decide) (writeOffset_width s v)

/-- Settles O28: the write clears the error, and by the invariant no command runs while one is pending. -/
theorem acknowledgeClearsError : Obligations.AcknowledgeClearsError := by
  intro s v hinv herr hv
  have hidle : s.busy = false := Bool.eq_false_iff.2 fun hb => by simp [hinv.busyErr hb] at herr
  have hcleared : (writeStatus v s).error = none := by simp [writeStatus_eq, hv]
  refine ⟨writeStatus v s, step_wordWrite s v (by decide) (by decide), hcleared, ?_, ⟨?_, hcleared⟩, ?_⟩
  · rw [statusWord_errcode, hcleared]
    rfl
  · rw [writeStatus_eq]
    exact hidle
  · rw [writeStatus_eq]
    exact ⟨⟨rfl, rfl, rfl, rfl, rfl⟩, rfl, rfl, rfl, rfl, rfl, rfl, rfl⟩

end Sys2Proof.Proofs.Errors
end

section
/-! SUPPORT. Memory after a command was cut short (60_exceptions.md R176, 70_reset_and_hazards.md R202): which bytes can
change, and what an admitted destination byte can hold. -/

namespace Sys2Proof.Machine

variable {s : State} {r : Running} {a : Nat}

/-- Cutting a command short writes the admitted bytes of its destination extent, one draw each. -/
theorem State.cutMemory_eq_writeEach (s : State) (r : Running) : s.cutMemory r =
    writeEach (fun j => admits s.platform (r.cmd.dst.toNat + j)) (fun j => r.cmd.dst.toNat + j)
      (fun j => s.cutByte r (s.draws + drawsPerByte * j) (r.cmd.dst.toNat + j)) (List.range (4 * r.cmd.count)) s.mem :=
  rfl

theorem Latched.inDest_iff (c : Latched) (a : Nat) :
    c.inDest a = true ↔ c.dst.toNat ≤ a ∧ a < c.dst.toNat + 4 * c.count := inExtent_iff _ _ _

theorem Latched.inSource_iff (c : Latched) (a : Nat) :
    c.inSource a = true ↔ c.src.toNat ≤ a ∧ a < c.src.toNat + 4 * c.count := inExtent_iff _ _ _

/-- A byte that is not an admitted one of the destination extent is left alone. -/
theorem State.readByte_cutMemory_outside (h : (r.cmd.inDest a && admits s.platform a) = false) :
    readByte (s.cutMemory r) a = readByte s.mem a := by
  rw [State.cutMemory_eq_writeEach]
  refine readByte_writeEach_outside _ _ _ _ _ _ fun j hj hadmits heq => ?_
  subst heq
  have hdest : r.cmd.inDest (r.cmd.dst.toNat + j) = true :=
    (r.cmd.inDest_iff _).2 ⟨Nat.le_add_right _ _, Nat.add_lt_add_left (List.mem_range.1 hj) _⟩
  simp [hdest, hadmits] at h

/-- An admitted destination byte holds a draw of its own. -/
theorem State.readByte_cutMemory_inside (hm : memoryWf s.mem = true)
    (hrange : outOfRange r.cmd.src.toNat r.cmd.dst.toNat r.cmd.count = false) (hd : r.cmd.inDest a = true)
    (ha : admits s.platform a = true) : ∃ k, readByte (s.cutMemory r) a = s.cutByte r k a := by
  obtain ⟨-, hspace⟩ := (outOfRange_eq_false _ _ _).1 hrange
  obtain ⟨hlo, hhi⟩ := (r.cmd.inDest_iff a).1 hd
  have hsum : r.cmd.dst.toNat + (a - r.cmd.dst.toNat) = a := by omega
  obtain ⟨j, -, -, hj, hread⟩ := readByte_writeEach_inside (fun j => admits s.platform (r.cmd.dst.toNat + j))
    (fun j => r.cmd.dst.toNat + j) (fun j => s.cutByte r (s.draws + drawsPerByte * j) (r.cmd.dst.toNat + j))
    (List.range (4 * r.cmd.count)) hm (fun j hj _ => by have := List.mem_range.1 hj; omega) a
    ⟨a - r.cmd.dst.toNat, List.mem_range.2 (by omega), by rwa [hsum], hsum⟩
  exact ⟨_, by rw [State.cutMemory_eq_writeEach, hread, hj]⟩

/-- A draw for a byte the host has not raced is the byte's value before the command or the engine's own. -/
theorem State.cutByte_of_quiet (s : State) (k : Nat) (h : r.hostValues a = []) :
    s.cutByte r k a = readByte r.before a ∨ s.cutByte r k a = s.engineByte r (k + 1) a := by
  have hdraw := pick_mem k (readByte r.before a) (s.engineByte r (k + 1) a :: r.hostValues a)
  simpa [State.cutByte, h] using hdraw

/-- The engine reads the source bytes the host has not raced as they were at acceptance (20_memory.md R57). -/
theorem State.sourceBytes_of_quiet (hdata : DataInv s r) (hq : r.hostWrites = []) (k : Nat) {n : Nat}
    (hin : ∀ j, j < n → r.cmd.inSource (a + j) = true) : s.sourceBytes r k a n = readBytes r.before a n := by
  refine List.map_congr_left fun j hj => ?_
  have hraced := Running.hostValues_of_nil hq (a + j)
  rw [s.sourceByte_of_quiet _ hraced, hdata.source _ (hin j (List.mem_range.1 hj)) hraced]

/-- The engine's own value of a pixel, done or not, is P of the source pixel at acceptance (40_pixelblock_transform.md
R108). -/
theorem State.enginePixel_of_quiet (hdata : DataInv s r) (hq : r.hostWrites = []) (k : Nat) {i : Nat}
    (hi : i < r.cmd.count) : s.enginePixel r k i = (pixelIn r.before r.cmd.src.toNat i).transform := by
  unfold State.enginePixel
  cases hdone : r.done.lookup i with
  | some y =>
    have hgray := hdata.gray i y hi hdone fun _ _ => Running.hostValues_of_nil hq _
    simp only [hgray, Pixel.transform]
  | none =>
    have hin : ∀ j, j < 4 → r.cmd.inSource (r.cmd.sourceAddr i + j) = true := fun j hj => by
      rw [Latched.inSource_iff, Latched.sourceAddr]
      omega
    simp only [State.sourceBytes_of_quiet hdata hq k hin]
    rfl

/-- The engine's own value of a destination byte is its final value. -/
theorem State.engineByte_of_quiet (hdata : DataInv s r) (hq : r.hostWrites = []) (k : Nat)
    (hd : r.cmd.inDest a = true) : s.engineByte r k a = finalByte r.cmd r.before a := by
  obtain ⟨hlo, hhi⟩ := (r.cmd.inDest_iff a).1 hd
  rw [State.engineByte, State.enginePixel_of_quiet hdata hq k (by omega), finalByte]

/-- R176, R202: an admitted destination byte of a command cut short that the host has not raced holds its value before
the command or its final value. -/
theorem State.readByte_cutMemory_old_or_final (hm : memoryWf s.mem = true) (hok : RunningOk s r) (hdata : DataInv s r)
    (hq : r.hostWrites = []) (hd : r.cmd.inDest a = true) (ha : admits s.platform a = true) :
    readByte (s.cutMemory r) a = readByte r.before a
      ∨ readByte (s.cutMemory r) a = finalByte r.cmd r.before a := by
  obtain ⟨k, hk⟩ := State.readByte_cutMemory_inside hm hok.inRange hd ha
  rw [hk, ← State.engineByte_of_quiet hdata hq (k + 1) hd]
  exact s.cutByte_of_quiet k (Running.hostValues_of_nil hq a)

end Sys2Proof.Machine
end

section
/-! SUPPORT. What a reset does (70_reset_and_hazards.md R200 to R202): IDLE it clears the registers alone, BUSY it also
cuts the command short. -/

namespace Sys2Proof.Machine

variable {s : State} {r : Running}

theorem step_reset (s : State) : step (s.withEvent .reset) = .next (applyReset s) := rfl

theorem applyReset_of_idle (h : s.engine = none) : applyReset s = s.clearRegisters := by
  simp only [applyReset, h]

theorem applyReset_of_running (h : s.engine = some r) :
    applyReset s = State.clearRegisters { s.cutShort r with resetCut := true } := by
  simp only [applyReset, h]

theorem applyReset_mem_of_running (h : s.engine = some r) : (applyReset s).mem = s.cutMemory r := by
  rw [applyReset_of_running h]
  rfl

/-- A reset ends in clearing the registers, with the platform and the events to come as they were. -/
theorem applyReset_eq_clearRegisters (s : State) :
    ∃ u : State, applyReset s = u.clearRegisters ∧ u.platform = s.platform ∧ u.events = s.events := by
  cases h : s.engine with
  | none => exact ⟨s, applyReset_of_idle h, rfl, rfl⟩
  | some r => exact ⟨_, applyReset_of_running h, rfl, rfl⟩

@[simp] theorem statusWord_clearRegisters (s : State) : statusWord s.clearRegisters = 0 := by
  simp [statusWord, errcodeField]

/-- Cleared, CAP reads its constant and the other registers 0 (10_state.md R36). -/
theorem readRegister_clearRegisters (s : State) :
    readRegister s.clearRegisters .cap = (supportedBsz s.platform).setWidth 32
      ∧ readRegister s.clearRegisters .ctrl = 0 ∧ readRegister s.clearRegisters .src = 0
      ∧ readRegister s.clearRegisters .dst = 0 ∧ readRegister s.clearRegisters .width = 0
      ∧ readRegister s.clearRegisters .status = 0 :=
  ⟨rfl, rfl, rfl, rfl, rfl, statusWord_clearRegisters s⟩

/-- The model starts from cleared registers. -/
theorem clearRegisters_reset : State.reset.clearRegisters = State.reset := rfl

end Sys2Proof.Machine
end

section
/-! PROOF. The statements on reset (70_reset_and_hazards.md R200 to R202, 10_state.md R36). -/

namespace Sys2Proof.Proofs.Reset

open Sys2Proof Sys2Proof.Machine

/-- Settles O1: a reset ends in clearing the registers, and the model starts from them cleared. -/
theorem resetSetsRegisters : Obligations.ResetSetsRegisters := by
  constructor
  · intro s
    obtain ⟨u, hu, hplatform, hevents⟩ := applyReset_eq_clearRegisters s
    obtain ⟨hcap, hctrl, hsrc, hdst, hwidth, hstatus⟩ := readRegister_clearRegisters u
    refine ⟨u.clearRegisters, hu ▸ step_reset s, ?_⟩
    exact ⟨hplatform ▸ hcap, hctrl, hsrc, hdst, hwidth, hstatus, rfl, hevents⟩
  · obtain ⟨hcap, hctrl, hsrc, hdst, hwidth, hstatus⟩ := readRegister_clearRegisters State.reset
    rw [clearRegisters_reset] at hcap hctrl hsrc hdst hwidth hstatus
    exact ⟨hctrl, hsrc, hdst, hwidth, hstatus, rfl, hcap⟩

/-- Settles O2: IDLE a reset leaves memory alone, BUSY it writes only what cutting the command short does. -/
theorem resetKeepsMemory : Obligations.ResetKeepsMemory := by
  intro s
  refine ⟨applyReset s, step_reset s, ?_⟩
  cases h : s.engine with
  | none =>
    rw [applyReset_of_idle h]
    exact ⟨fun _ _ => rfl, fun _ => ⟨fun _ => rfl, rfl⟩⟩
  | some r =>
    rw [applyReset_mem_of_running h]
    refine ⟨fun a ha => State.readByte_cutMemory_outside (ha r rfl), fun hidle => ?_⟩
    simp [State.busy, h] at hidle

/-- Settles O3: an unraced command's draws are old or final bytes, and the mark of the cut excludes a good end. -/
theorem resetCutsCommandShort : Obligations.ResetCutsCommandShort := by
  intro s r hinv hdata hr hq
  have hcut : (applyReset s).resetCut = true := by
    rw [applyReset_of_running hr, State.clearRegisters_resetCut]
  have hgood : ¬ GoodEnd (applyReset s) := fun ⟨_, _, _, _, _, hno, _⟩ => by simp [hcut] at hno
  obtain ⟨u, hu, -, -⟩ := applyReset_eq_clearRegisters s
  refine ⟨applyReset s, step_reset s, by rw [hu, State.clearRegisters_busy],
    by rw [hu, statusWord_clearRegisters], hcut, hgood, ?_, ?_⟩
  · intro a hd ha
    rw [applyReset_mem_of_running hr]
    exact State.readByte_cutMemory_old_or_final hinv.memWf (hinv.running r hr) (hdata r hr) hq hd ha
  · intro a ha
    rw [applyReset_mem_of_running hr]
    exact State.readByte_cutMemory_outside ha

end Sys2Proof.Proofs.Reset
end

section
/-! SUPPORT. Everything a step can do, said once over the events of 60_exceptions.md R183: the statements about every
step are case splits of it. -/

namespace Sys2Proof.Machine

/-- The machine after a host write of one byte of memory (20_memory.md R64, 70_reset_and_hazards.md R206). -/
def State.afterWrite (a : Addr) (v : Byte) (s : State) : State :=
  State.drew drawsPerByte { s with
    mem := writeByte s.mem a.toNat (s.hostWriteByte a.toNat v)
    engine := s.engine.map (Running.logWrite a.toNat (s.hostWriteByte a.toNat v))
    unobserved := s.unobserved.map (Finished.noteWrite a.toNat)
    racy := s.racy || s.writeRaces a.toNat }

theorem State.afterWrite_racy (a : Addr) (v : Byte) (s : State) :
    (s.afterWrite a v).racy = (s.racy || s.writeRaces a.toNat) := rfl

/-- What a step from `s` can answer, `es` being the events to come after it. -/
inductive StepEffect (s : State) (es : List Event) : Host.Outcome State Fault Refusal → Prop
  /-- Only the host's side changes: a read, a `require`, or an access that does nothing (10_state.md R34). -/
  | hostSide (values : List Readout) (ended : List Finished) (racy stopped : Bool) (draws : Nat)
      (keepsRacy : s.racy = true → racy = true) (keepsStopped : s.stopped = true → stopped = true) :
      StepEffect s es (.next { s with
        events := es, readouts := values, unobserved := ended, racy := racy, stopped := stopped, draws := draws })
  /-- A write is dropped, for BUSY or, to CMD, for a pending error (10_state.md R33, 60_exceptions.md R180). -/
  | dropped {off : Nat} {v : Word} (write : NextWrites s off v)
      (why : (s.busy = true ∧ off ∈ [0x04, 0x08, 0x0C, 0x10, 0x14]) ∨ (s.error.isSome = true ∧ off = 0x14)) :
      StepEffect s es (.next { s with events := es, drop := true })
  | setCtrl {v : Word} (write : NextWrites s 0x04 v) (idle : s.busy = false) :
      StepEffect s es (.next { s with events := es, bsz := legalCode s.platform (requestedCode v) })
  | setSrc {v : Word} (write : NextWrites s 0x08 v) (idle : s.busy = false) :
      StepEffect s es (.next { s with events := es, src := v })
  | setDst {v : Word} (write : NextWrites s 0x0C v) (idle : s.busy = false) :
      StepEffect s es (.next { s with events := es, dst := v })
  | setWidth {v : Word} (write : NextWrites s 0x10 v) (idle : s.busy = false) :
      StepEffect s es (.next { s with events := es, width := v })
  /-- A write of STATUS clears flags (10_state.md R28). -/
  | clearedFlags {v : Word} (write : NextWrites s 0x18 v) :
      StepEffect s es (.next { s with
        events := es
        doneFlag := s.doneFlag && !v.getLsbD 1
        error := if v.getLsbD 2 then none else s.error
        drop := s.drop && !v.getLsbD 3 })
  /-- A command request ends in one of the errors 1 to 4 (60_exceptions.md R177). -/
  | rejected {v : Word} {e : ErrorKind} (write : NextWrites s 0x14 v) (takes : TakesCommands s) (kind : e ≠ .busFault) :
      StepEffect s es (.next { s with events := es, doneFlag := false, error := some e })
  /-- A command is accepted (30_encoding.md R86). -/
  | accepted {v : Word} {i : Instr} (write : NextWrites s 0x14 v) (word : decode v = .ok i) (passes : Acceptable i s) :
      StepEffect s es (.next (accept (latch i s) { s with events := es, doneFlag := false }))
  | hostWrote {a : Addr} {v : Byte} (write : ∃ rest, s.events = .memWrite a v :: rest) :
      StepEffect s es (.next (State.afterWrite a v { s with events := es }))
  | reset (next : NextResets s) : StepEffect s es (.next (applyReset { s with events := es }))
  /-- The engine does a unit (41_row_driver.md R140). -/
  | performed {r : Running} {u : WorkUnit} (engine : s.engine = some r) (unit : u ∈ r.cmd.units)
      (pending : r.isDone (u.first r.cmd.lanes) = false) (inSpace : r.cmd.unitInSpace u = true) :
      StepEffect s es (.next (State.performUnit r u { s with events := es }))
  | completed {r : Running} (engine : s.engine = some r) (nothing : r.pending = []) :
      StepEffect s es (.next (State.complete r { s with events := es }))
  | busFaulted {r : Running} {u : WorkUnit} (engine : s.engine = some r) (unit : u ∈ r.cmd.units)
      (notAdmitted : unitAdmitted s.platform r.cmd u = false) :
      StepEffect s es (.next (State.busFault r { s with events := es }))
  /-- The engine would leave the address space, as no accepted command does (60_exceptions.md R174). -/
  | outside {r : Running} {u : WorkUnit} (engine : s.engine = some r) (unit : u ∈ r.cmd.units)
      (out : r.cmd.unitInSpace u = false) : StepEffect s es (.fault .outsideAddressSpace)
  /-- A register access of a form that R35 of 10_state.md gives no value. -/
  | misformed {e : Event} {rest : List Event} {x : HostAddr} {w : AccessWidth} (next : s.events = e :: rest)
      (access : (∃ v, e = .regWrite x w v) ∨ e = .regRead x w) (form : resolveAccess s.platform x w = .misformed) :
      StepEffect s es (.refused .registerAccessForm)
  /-- A command on side-effecting memory (20_memory.md R59). -/
  | refusedCommand {v : Word} {i : Instr} (write : NextWrites s 0x14 v) (takes : TakesCommands s)
      (word : decode v = .ok i)
      (extents : ¬ ExtentsOrdinary s.platform s.src.toNat s.dst.toNat (pixelCount i s)) :
      StepEffect s es (.refused .sideEffectingExtent)
  /-- A host access of its own to side-effecting memory (R59). -/
  | refusedAccess {e : Event} {rest : List Event} {a : Addr} (next : s.events = e :: rest)
      (access : e = .memRead a ∨ ∃ v, e = .memWrite a v) (effects : sideEffecting s.platform a.toNat = true) :
      StepEffect s es (.refused .sideEffectingAccess)

variable {s : State} {es rest : List Event}

theorem engineStep_effect (k : Nat) (s : State) (es : List Event) :
    StepEffect s es (engineStep k { s with events := es }) := by
  rcases engineStep_cases k { s with events := es } with
    ⟨-, e⟩ | ⟨r, hr, ⟨hp, e⟩ | ⟨u, -, hu, hpend, ⟨hout, e⟩ | ⟨hin, -, e⟩ | ⟨-, hadm, e⟩⟩⟩ <;> rw [e]
  · exact .hostSide _ _ _ _ _ id id
  · exact .completed hr hp
  · exact .outside hr hu hout
  · exact .performed hr hu hpend hin
  · exact .busFaulted hr hu hadm

theorem writeCmd_effect {v : Word} (hw : NextWrites s 0x14 v) :
    StepEffect s rest (writeCmd v { s with events := rest }) := by
  have hdropped (hn : ¬ TakesCommands s) : StepEffect s rest (.next { s with events := rest, drop := true }) := by
    refine .dropped hw ?_
    cases hb : s.busy with
    | true => exact .inl ⟨rfl, by decide⟩
    | false => exact .inr ⟨Option.isSome_iff_ne_none.2 fun he => hn ⟨hb, he⟩, rfl⟩
  unfold writeCmd
  cases hd : decode v with
  | error d =>
    rcases rejectCommand_cases { s with events := rest } with ⟨hn, e⟩ | ⟨ht, e⟩ <;> simp only [e]
    · exact hdropped hn
    · exact .rejected hw ht (by decide)
  | ok i =>
    rcases exec_cases i { s with events := rest } with ⟨hn, e⟩ | ⟨ht, ⟨x, hx, e⟩ | ⟨hext, e⟩ | ⟨ha, e⟩⟩ <;>
      simp only [e]
    · exact hdropped hn
    · exact .rejected hw ht hx
    · exact .refusedCommand hw ht hd hext
    · exact .accepted hw hd ha

theorem regAt_eq_some_iff {off : Nat} {reg : Reg} : regAt off = some reg ↔ off = regOffset reg := by
  constructor
  · unfold regAt
    split_ifs <;> rintro ⟨⟩ <;> assumption
  · rintro rfl
    cases reg <;> rfl

theorem writeOffset_effect {off : Nat} {v : Word} (hw : NextWrites s off v) :
    StepEffect s rest (writeOffset off v { s with events := rest }) := by
  have hguard (f : State → State) (hoff : off ∈ [0x04, 0x08, 0x0C, 0x10, 0x14])
      (htaken : s.busy = false → StepEffect s rest (.next (f { s with events := rest }))) :
      StepEffect s rest (.next (unlessBusy f { s with events := rest })) := by
    cases hb : s.busy with
    | true => rw [unlessBusy_of_busy _ f (by exact hb)]; exact .dropped hw (.inl ⟨hb, hoff⟩)
    | false => rw [unlessBusy_of_idle _ f (by exact hb)]; exact htaken hb
  unfold writeOffset
  cases hreg : regAt off with
  | none => exact .hostSide _ _ _ _ _ id id
  | some reg =>
    obtain rfl := regAt_eq_some_iff.1 hreg
    cases reg with
    | cap => exact .hostSide _ _ _ _ _ id id
    | ctrl => exact hguard _ (by decide) (.setCtrl hw)
    | src => exact hguard _ (by decide) (.setSrc hw)
    | dst => exact hguard _ (by decide) (.setDst hw)
    | width => exact hguard _ (by decide) (.setWidth hw)
    | cmd => exact writeCmd_effect hw
    | status =>
      simp only [writeRegister, writeStatus_eq]
      exact .clearedFlags hw

theorem readAt_effect (off : Nat) (s : State) (rest : List Event) :
    StepEffect s rest (.next (readAt off { s with events := rest })) := by
  obtain ⟨l, e⟩ := readAt_eq { s with events := rest } off
  rw [e]
  exact .hostSide _ _ _ _ _ id id

theorem accessAdmitted_iff {off : Nat} {w : AccessWidth} :
    accessAdmitted off w = true ↔ w = .word ∧ off % 4 = 0 := by
  simp [accessAdmitted]

theorem hostWrite_effect {x : HostAddr} {w : AccessWidth} {v : Word} (he : s.events = .regWrite x w v :: rest) :
    StepEffect s rest (hostWrite x w v { s with events := rest }) := by
  unfold hostWrite
  cases ha : resolveAccess s.platform x w with
  | elsewhere => exact .hostSide _ _ _ _ _ id id
  | misformed => exact .misformed he (.inl ⟨v, rfl⟩) ha
  | register off =>
    obtain ⟨hoff, hform⟩ := resolveAccess_register ha
    obtain ⟨rfl, -⟩ := accessAdmitted_iff.1 hform
    exact writeOffset_effect ⟨x, rest, he, hoff⟩

theorem hostRead_effect {x : HostAddr} {w : AccessWidth} (he : s.events = .regRead x w :: rest) :
    StepEffect s rest (hostRead x w { s with events := rest }) := by
  unfold hostRead
  cases ha : resolveAccess s.platform x w with
  | elsewhere => exact .hostSide _ _ _ _ _ id id
  | misformed => exact .misformed he (.inr rfl) ha
  | register off => exact readAt_effect off s rest

theorem hostMemRead_effect {a : Addr} (he : s.events = .memRead a :: rest) :
    StepEffect s rest (hostMemRead a { s with events := rest }) := by
  unfold hostMemRead
  cases hse : sideEffecting s.platform a.toNat with
  | true => exact .refusedAccess he (.inl rfl) hse
  | false => exact .hostSide _ _ _ _ _ (by simp +contextual) id

theorem hostMemWrite_effect {a : Addr} {v : Byte} (he : s.events = .memWrite a v :: rest) :
    StepEffect s rest (hostMemWrite a v { s with events := rest }) := by
  unfold hostMemWrite
  cases hse : sideEffecting s.platform a.toNat with
  | true => exact .refusedAccess he (.inr ⟨v, rfl⟩) hse
  | false => exact .hostWrote ⟨rest, he⟩

/-- Everything a step can do; the events to come are some of those before. -/
theorem step_effect (s : State) : ∃ es, es.Sublist s.events ∧ StepEffect s es (step s) := by
  cases he : s.events with
  | nil =>
    rw [step_of_no_events he]
    exact ⟨[], .refl _, he ▸ engineStep_effect 0 s s.events⟩
  | cons e rest =>
    rw [step_of_events he]
    have hrest : rest.Sublist (e :: rest) := List.sublist_cons_self e rest
    cases e with
    | regWrite x w v => exact ⟨rest, hrest, hostWrite_effect he⟩
    | regRead x w => exact ⟨rest, hrest, hostRead_effect he⟩
    | memWrite a v => exact ⟨rest, hrest, hostMemWrite_effect he⟩
    | memRead a => exact ⟨rest, hrest, hostMemRead_effect he⟩
    | wait =>
      unfold perform hostWait
      split_ifs with hb
      · exact ⟨.wait :: rest, .refl _, engineStep_effect 0 s (.wait :: rest)⟩
      · exact ⟨rest, hrest, readAt_effect _ s rest⟩
    | requireDone =>
      rcases hostRequire_cases { s with events := rest } with e | e <;> simp only [perform, e]
      · exact ⟨rest, hrest, .hostSide _ _ _ _ _ id id⟩
      · exact ⟨_, List.filter_sublist.trans hrest, .hostSide _ _ _ _ _ id fun _ => rfl⟩
    | reset => exact ⟨rest, hrest, .reset ⟨rest, he⟩⟩
    | engine k => exact ⟨rest, hrest, engineStep_effect k s rest⟩

theorem step_effect_of_next {s t : State} (h : step s = .next t) :
    ∃ es, es.Sublist s.events ∧ StepEffect s es (.next t) := h ▸ step_effect s

end Sys2Proof.Machine
end

section
/-! SUPPORT. The units of a command tile its pixels (41_row_driver.md R143), for every latched command. -/

namespace Sys2Proof.Machine

/-- The pixel indices of a unit, in order. -/
def WorkUnit.indices (b : Nat) (u : WorkUnit) : List Nat := (List.range (u.pixels b)).map fun j => u.first b + j

theorem WorkUnit.mem_indices {b i : Nat} {u : WorkUnit} :
    i ∈ u.indices b ↔ ∃ j, j < u.pixels b ∧ u.first b + j = i := by
  simp [WorkUnit.indices]

/-- The pixels in whole blocks are a multiple of B for every count, since the mask looks at its low 32 bits alone (R141). -/
theorem blockSize_dvd_prefixPixels (n : Nat) (c : Fin 5) : blockSize c ∣ prefixPixels n (blockSize c) := by
  have hlow : prefixPixels n (blockSize c) = prefixPixels (n % 2 ^ 32) (blockSize c) := by
    have hword : BitVec.ofNat 32 (n % 2 ^ 32) = BitVec.ofNat 32 n := BitVec.eq_of_toNat_eq (by simp)
    rw [prefixPixels, prefixPixels, hword]
  rw [hlow, prefixPixels_blockSize (Nat.mod_lt _ (by decide))]
  exact Nat.dvd_mul_right ..

theorem flatMap_indices_scalars (b first n : Nat) :
    ((List.range n).map fun j => WorkUnit.scalar (first + j)).flatMap (WorkUnit.indices b)
      = (List.range n).map (first + ·) := by
  rw [List.flatMap_map, List.map_eq_flatMap]
  rfl

theorem flatMap_indices_blocks (b m : Nat) :
    ((List.range m).map WorkUnit.block).flatMap (WorkUnit.indices b) = List.range (m * b) := by
  rw [List.flatMap_map]
  exact flatMap_blocks_eq_range m b

/-- The blocks tile the first nb pixels and the scalar units the rest (R141, R142). -/
theorem flatMap_indices_splitUnits (n : Nat) (c : Fin 5) :
    (splitUnits n (blockSize c)).flatMap (WorkUnit.indices (blockSize c)) = List.range n := by
  rw [splitUnits, List.flatMap_append, flatMap_indices_blocks, flatMap_indices_scalars,
    Nat.div_mul_cancel (blockSize_dvd_prefixPixels n c), ← List.range_add,
    Nat.add_sub_cancel' (prefixPixels_le n (blockSize c))]

theorem Latched.flatMap_indices_units (c : Latched) :
    c.units.flatMap (WorkUnit.indices c.lanes) = List.range c.count := by
  unfold Latched.units
  cases c.op with
  | pixel => simpa using flatMap_indices_scalars c.lanes 0 c.count
  | block => exact flatMap_indices_splitUnits c.count c.code
  | row => exact flatMap_indices_splitUnits c.count c.code

/-- Every pixel of the command is one of a unit's. -/
theorem Latched.exists_unit {c : Latched} {i : Nat} (h : i < c.count) : ∃ u ∈ c.units, i ∈ u.indices c.lanes := by
  rwa [← List.mem_range, ← c.flatMap_indices_units, List.mem_flatMap] at h

/-- No pixel is two units'. -/
theorem Latched.unit_unique {c : Latched} {u w : WorkUnit} {i : Nat} (hu : u ∈ c.units) (hw : w ∈ c.units)
    (hi : i ∈ u.indices c.lanes) (hi' : i ∈ w.indices c.lanes) : u = w := by
  have hnodup : (c.units.flatMap (WorkUnit.indices c.lanes)).Nodup := c.flatMap_indices_units ▸ List.nodup_range
  have hdisjoint : c.units.Pairwise (Function.onFun List.Disjoint (WorkUnit.indices c.lanes)) :=
    (List.nodup_flatMap.1 hnodup).2
  have : Std.Symm (Function.onFun List.Disjoint (WorkUnit.indices c.lanes)) := ⟨fun _ _ h => h.symm⟩
  by_contra hne
  exact hdisjoint.forall hu hw hne hi hi'

/-- A command that passes the checks has at most 2^29 pixels: two disjoint extents in 2^32 bytes. -/
theorem Acceptable.pixelCount_le {i : Instr} {s : State} (h : Acceptable i s) : pixelCount i s ≤ 2 ^ 29 := by
  obtain ⟨-, -, hrange, hoverlap, -⟩ := h
  rw [outOfRange_eq_false] at hrange
  rw [overlaps_eq_false] at hoverlap
  omega

end Sys2Proof.Machine
end

section
/-! SUPPORT. A work step of the engine (41_row_driver.md R140): what it adds to done_set and what it writes. -/

namespace Sys2Proof.Machine

variable {s : State} {r : Running} {u : WorkUnit}

/-- What a unit reads: the bytes of its source pixels. -/
def State.unitInput (s : State) (r : Running) (u : WorkUnit) : List Byte :=
  s.sourceBytes r s.draws (r.cmd.sourceAddr (u.first r.cmd.lanes)) (4 * u.pixels r.cmd.lanes)

/-- The running command with the unit's pixels in done_set, each with its gray byte. -/
def Running.withUnit (r : Running) (u : WorkUnit) (input : List Byte) : Running :=
  { r with done := r.done ++ (List.range (u.pixels r.cmd.lanes)).map fun j =>
      (u.first r.cmd.lanes + j, (lanePixel input j).gray) }

theorem performUnit_mem (s : State) (r : Running) (u : WorkUnit) : (s.performUnit r u).mem =
    writeBytes s.mem (r.cmd.destAddr (u.first r.cmd.lanes)) (u.output r.cmd.lanes (s.unitInput r u)) := rfl

@[simp] theorem Running.withUnit_cmd (input : List Byte) : (r.withUnit u input).cmd = r.cmd := rfl

theorem Running.withUnit_isDone {input : List Byte} {i : Nat} :
    (r.withUnit u input).isDone i = true ↔ r.isDone i = true ∨ i ∈ u.indices r.cmd.lanes := by
  simp [Running.isDone, Running.withUnit, List.any_append, WorkUnit.mem_indices]

theorem Running.isDone_eq_isSome_lookup (r : Running) (i : Nat) : r.isDone i = (r.done.lookup i).isSome := by
  rw [Bool.eq_iff_iff, List.lookup_isSome_iff]
  simp only [Running.isDone, List.any_eq_true, beq_iff_eq, eq_comm (a := i)]

theorem lookup_map_range (first : Nat) (f : Nat → Byte) {n j : Nat} (h : j < n) :
    ((List.range n).map fun j => (first + j, f j)).lookup (first + j) = some (f j) := by
  induction n with
  | zero => omega
  | succ n ih =>
    rw [List.range_succ, List.map_append, List.lookup_append]
    by_cases hj : j < n
    · rw [ih hj]; rfl
    · obtain rfl : j = n := by omega
      rw [List.lookup_eq_none_iff.2 (by simp; omega)]
      simp

/-- The gray byte of a pixel of the unit, when the unit was pending. -/
theorem Running.withUnit_lookup_inside {input : List Byte} {j : Nat} (hj : j < u.pixels r.cmd.lanes)
    (hnew : r.isDone (u.first r.cmd.lanes + j) = false) :
    (r.withUnit u input).done.lookup (u.first r.cmd.lanes + j) = some (lanePixel input j).gray := by
  rw [Running.isDone_eq_isSome_lookup, Option.isSome_eq_false_iff, Option.isNone_iff_eq_none] at hnew
  rw [Running.withUnit, List.lookup_append, hnew, lookup_map_range _ _ hj]
  rfl

theorem Running.withUnit_lookup_outside {input : List Byte} {i : Nat} (h : i ∉ u.indices r.cmd.lanes) :
    (r.withUnit u input).done.lookup i = r.done.lookup i := by
  have hnone : ((List.range (u.pixels r.cmd.lanes)).map fun j =>
      (u.first r.cmd.lanes + j, (lanePixel input j).gray)).lookup i = none := by
    rw [List.lookup_eq_none_iff]
    simp only [WorkUnit.mem_indices, not_exists, not_and] at h
    simp only [List.mem_map, List.mem_range]
    rintro p ⟨j, hj, rfl⟩
    simpa using Ne.symm (h j hj)
  rw [Running.withUnit, List.lookup_append, hnone, Option.or_none]

/-- A pixel outside the unit keeps its destination bytes. -/
theorem readByte_performUnit_outside {i k : Nat} (hi : i ∉ u.indices r.cmd.lanes) (hk : k < 4) :
    readByte (s.performUnit r u).mem (r.cmd.destAddr i + k) = readByte s.mem (r.cmd.destAddr i + k) := by
  have hsides : i < u.first r.cmd.lanes ∨ u.first r.cmd.lanes + u.pixels r.cmd.lanes ≤ i := by
    by_contra hin
    exact hi (WorkUnit.mem_indices.2 ⟨i - u.first r.cmd.lanes, by omega, by omega⟩)
  rw [performUnit_mem, readByte_writeBytes_outside]
  rw [WorkUnit.output_length, Latched.destAddr, Latched.destAddr]
  omega

/-- Bytes outside the destination extent are none of a unit's. -/
theorem readByte_performUnit_of_not_dest {a : Nat} (hu : u ∈ r.cmd.units) (ha : r.cmd.inDest a = false) :
    readByte (s.performUnit r u).mem a = readByte s.mem a := by
  have hwithin := Latched.units_within hu
  have hout : ¬ (r.cmd.dst.toNat ≤ a ∧ a < r.cmd.dst.toNat + 4 * r.cmd.count) := by
    rw [← r.cmd.inDest_iff, ha]
    decide
  rw [performUnit_mem, readByte_writeBytes_outside]
  rw [WorkUnit.output_length, Latched.destAddr]
  omega

/-- Byte k of pixel j of a unit's output is P's of the pixel read (40_pixelblock_transform.md R108). -/
theorem WorkUnit.output_getD {b j k : Nat} (u : WorkUnit) (x : List Byte) (hj : j < u.pixels b) (hk : k < 4) :
    (u.output b x).getD (4 * j + k) 0 = (lanePixel x j).transform.byteAt k := by
  cases u with
  | block n =>
    rw [WorkUnit.output, List.getD_eq_getElem?_getD, transformBlock_getElem? b x j k hj hk]
    exact List.getD_eq_getElem?_getD.symm
  | scalar i =>
    obtain rfl : j = 0 := Nat.lt_one_iff.1 hj
    rw [Nat.mul_zero, Nat.zero_add]
    rfl

theorem Latched.outputs_inSpace {c : Latched} {u : WorkUnit} (hu : u ∈ c.units)
    (hr : outOfRange c.src.toNat c.dst.toNat c.count = false) (x : List Byte) :
    c.destAddr (u.first c.lanes) + (u.output c.lanes x).length ≤ 2 ^ 32 := by
  have hspace := Latched.unitInSpace_of_inRange hu hr
  rw [Latched.unitInSpace, Bool.and_eq_true, decide_eq_true_eq, decide_eq_true_eq] at hspace
  rw [WorkUnit.output_length]
  exact hspace.2

/-- The bytes of a pixel of the unit become P's of the pixel read. -/
theorem readByte_performUnit_inside {j k : Nat} (hm : memoryWf s.mem = true) (hu : u ∈ r.cmd.units)
    (hr : outOfRange r.cmd.src.toNat r.cmd.dst.toNat r.cmd.count = false) (hj : j < u.pixels r.cmd.lanes)
    (hk : k < 4) :
    readByte (s.performUnit r u).mem (r.cmd.destAddr (u.first r.cmd.lanes + j) + k)
      = (lanePixel (s.unitInput r u) j).transform.byteAt k := by
  have haddr : r.cmd.destAddr (u.first r.cmd.lanes + j) + k
      = r.cmd.destAddr (u.first r.cmd.lanes) + (4 * j + k) := by
    rw [Latched.destAddr, Latched.destAddr]
    omega
  rw [performUnit_mem, haddr, readByte_writeBytes_inside hm _ _ _ (by rw [WorkUnit.output_length]; omega)
    (Latched.outputs_inSpace hu hr _), WorkUnit.output_getD u _ hj hk]

theorem memoryWf_performUnit (hm : memoryWf s.mem = true) (hu : u ∈ r.cmd.units)
    (hr : outOfRange r.cmd.src.toNat r.cmd.dst.toNat r.cmd.count = false) :
    memoryWf (s.performUnit r u).mem = true :=
  memoryWf_writeBytes hm _ _ (Latched.outputs_inSpace hu hr _)

end Sys2Proof.Machine
end

section
/-! SUPPORT. Every step keeps the invariant of registers, memory form and running command (10_state.md R28, R31,
30_encoding.md R86, 60_exceptions.md R180). -/

namespace Sys2Proof.Machine

variable {s t : State} {r : Running}

/-! Memory stays canonical. -/

theorem Latched.inDest_lt {c : Latched} {a : Nat} (hr : outOfRange c.src.toNat c.dst.toNat c.count = false)
    (ha : c.inDest a = true) : a < 2 ^ 32 := by
  obtain ⟨-, hspace⟩ := (outOfRange_eq_false _ _ _).1 hr
  obtain ⟨-, hhi⟩ := (c.inDest_iff a).1 ha
  exact hhi.trans_le hspace

theorem memoryWf_cutMemory (hm : memoryWf s.mem = true)
    (hr : outOfRange r.cmd.src.toNat r.cmd.dst.toNat r.cmd.count = false) : memoryWf (s.cutMemory r) = true := by
  rw [State.cutMemory_eq_writeEach]
  refine memoryWf_writeEach _ _ _ _ hm fun j hj _ => Latched.inDest_lt hr ((r.cmd.inDest_iff _).2 ?_)
  have := List.mem_range.1 hj
  omega

/-- Completion writes the destination bytes that the host wrote too, one draw each. -/
theorem State.completedMemory_eq_writeEach (s : State) (r : Running) : s.completedMemory r =
    writeEach (fun e => r.cmd.inDest e.1.1) (fun e => e.1.1)
      (fun e => pick (s.draws + drawsPerByte * e.2) (s.engineByte r (s.draws + drawsPerByte * e.2 + 1) e.1.1)
        (r.hostValues e.1.1)) r.hostWrites.zipIdx s.mem :=
  rfl

theorem memoryWf_completedMemory (hm : memoryWf s.mem = true)
    (hr : outOfRange r.cmd.src.toNat r.cmd.dst.toNat r.cmd.count = false) :
    memoryWf (s.completedMemory r) = true := by
  rw [State.completedMemory_eq_writeEach]
  exact memoryWf_writeEach _ _ _ _ hm fun e _ he => Latched.inDest_lt hr he

/-! The running command stays consistent. -/

/-- The command's consistency depends on the state through the latched registers alone. -/
theorem RunningOk.of_latch (h : RunningOk s r) (hl : latch r.cmd.op t = latch r.cmd.op s) : RunningOk t r :=
  { h with latched := h.latched.trans hl.symm }

theorem runningOk_accepted {i : Instr} (hm : memoryWf s.mem = true) (ha : Acceptable i s) :
    RunningOk s { cmd := latch i s, before := s.mem, done := [], hostWrites := [] } := by
  obtain ⟨-, hpos, hrange, hoverlap, -⟩ := ha
  exact ⟨rfl, hpos, hrange, hoverlap, hm, nofun, fun _ _ _ _ => rfl, nofun⟩

theorem RunningOk.logWrite (h : RunningOk s r) (a : Nat) (v : Byte) : RunningOk s (r.logWrite a v) := by
  unfold Running.logWrite
  split_ifs with hin
  · refine { h with raced := fun c hc => ?_ }
    rcases List.mem_append.1 hc with hc | hc
    · exact h.raced c hc
    · obtain rfl := List.mem_singleton.1 hc
      simpa using hin
  · exact h

/-- done_set gets a whole unit, and no pixel is two units'. -/
theorem RunningOk.withUnit {u : WorkUnit} (h : RunningOk s r) (hu : u ∈ r.cmd.units) (input : List Byte) :
    RunningOk s (r.withUnit u input) := by
  refine { h with doneLt := fun e he => ?_, doneUnits := fun w hw j hj => ?_ }
  · have hwithin := Latched.units_within hu
    rcases List.mem_append.1 he with he | he
    · exact h.doneLt e he
    · obtain ⟨j, hj, rfl⟩ := List.mem_map.1 he
      have := List.mem_range.1 hj
      simp only [Running.withUnit_cmd]
      omega
  · simp only [Running.withUnit_cmd] at hw hj ⊢
    have hfirst (w : WorkUnit) : w.first r.cmd.lanes ∈ w.indices r.cmd.lanes :=
      WorkUnit.mem_indices.2 ⟨0, w.pixels_pos r.cmd.lanes_pos, rfl⟩
    have hmem : w.first r.cmd.lanes + j ∈ w.indices r.cmd.lanes := WorkUnit.mem_indices.2 ⟨j, hj, rfl⟩
    have hsame : w.first r.cmd.lanes + j ∈ u.indices r.cmd.lanes ↔ w.first r.cmd.lanes ∈ u.indices r.cmd.lanes :=
      ⟨fun hin => Latched.unit_unique hw hu hmem hin ▸ hfirst w,
        fun hin => Latched.unit_unique hw hu (hfirst w) hin ▸ hmem⟩
    rw [Bool.eq_iff_iff, Running.withUnit_isDone, Running.withUnit_isDone, h.doneUnits w hw j hj, hsame]

/-! The invariant of an idle, of a busy and of an undisturbed block. -/

theorem Inv.of_idle (hm : memoryWf t.mem = true) (hb : supports t.platform t.bsz = true) (he : t.engine = none)
    (hx : t.error.isSome = true → t.doneFlag = false) : Inv t := by
  have hidle : t.busy = false := by rw [State.busy, he]; rfl
  exact ⟨hm, hb, fun h => by simp [hidle] at h, hx, fun h => by simp [hidle] at h, fun r hr => by simp [he] at hr⟩

theorem Inv.of_running (hm : memoryWf t.mem = true) (hb : supports t.platform t.bsz = true) (he : t.engine = some r)
    (hd : t.doneFlag = false) (hx : t.error = none) (hr : RunningOk t r) : Inv t :=
  ⟨hm, hb, fun _ => hd, fun _ => hd, fun _ => hx, fun _ hq => Option.some.inj (he.symm.trans hq) ▸ hr⟩

/-- Clearing flags disturbs nothing of the invariant. -/
theorem Inv.of_flags_cleared (h : Inv s) (hm : t.mem = s.mem) (hr : RegsSame s t) (he : t.engine = s.engine)
    (hd : t.doneFlag = true → s.doneFlag = true) (hx : t.error = none ∨ t.error = s.error) : Inv t := by
  obtain ⟨hp, hbsz, hsrc, hdst, hwidth⟩ := hr
  have hdown (hf : s.doneFlag = false) : t.doneFlag = false := Bool.eq_false_iff.2 fun ht => by simp [hd ht] at hf
  have hbusy : t.busy = s.busy := by rw [State.busy, State.busy, he]
  refine ⟨hm ▸ h.memWf, hp ▸ hbsz ▸ h.bszLegal, fun hb => hdown (h.busyDone (hbusy ▸ hb)), fun herr => ?_,
    fun hb => ?_, fun r hr => (h.running r (he ▸ hr)).of_latch ?_⟩
  · rcases hx with hx | hx
    · simp [hx] at herr
    · exact hdown (h.errDone (hx ▸ herr))
  · exact hx.elim id fun hx => hx.trans (h.busyErr (hbusy ▸ hb))
  · cases r.cmd.op <;> simp only [latch, pixelCount, hbsz, hsrc, hdst, hwidth]

theorem State.engine_eq_none_of_idle (h : s.busy = false) : s.engine = none :=
  Option.isNone_iff_eq_none.1 (Option.isSome_eq_false_iff.1 h)

theorem State.busy_of_engine (h : s.engine = some r) : s.busy = true := by
  rw [State.busy, h]
  rfl

theorem applyReset_inv (h : Inv s) : Inv (applyReset s) := by
  cases he : s.engine with
  | none =>
    rw [applyReset_of_idle he]
    exact .of_idle h.memWf (supports_zero _) rfl nofun
  | some r =>
    rw [applyReset_of_running he]
    exact .of_idle (memoryWf_cutMemory h.memWf (h.running r he).inRange) (supports_zero _) rfl nofun

/-- A reset forgets no mark, and BUSY it sets one (70_reset_and_hazards.md R202). -/
theorem applyReset_marks (s : State) : (applyReset s).racy = s.racy ∧ (applyReset s).stopped = s.stopped
    ∧ (s.resetCut = true → (applyReset s).resetCut = true) := by
  cases he : s.engine with
  | none => rw [applyReset_of_idle he]; exact ⟨rfl, rfl, id⟩
  | some r => rw [applyReset_of_running he]; exact ⟨rfl, rfl, fun _ => rfl⟩

/-- The host's write of a byte keeps the invariant, logged with a running command or not. -/
theorem Inv.hostWrote (h : Inv s) (a : Addr) (v : Byte) (hm : t.mem = writeByte s.mem a.toNat v)
    (he : t.engine = s.engine.map (Running.logWrite a.toNat v)) (hr : RegsSame s t) (hf : FlagsSame s t) : Inv t := by
  obtain ⟨hp, hbsz, hsrc, hdst, hwidth⟩ := hr
  obtain ⟨hdone, herr, -⟩ := hf
  have hwf : memoryWf t.mem = true := hm ▸ memoryWf_writeByte h.memWf a.isLt v
  have hlegal : supports t.platform t.bsz = true := hp ▸ hbsz ▸ h.bszLegal
  cases hs : s.engine with
  | none => exact .of_idle hwf hlegal (by rw [he, hs]; rfl) (by rw [herr, hdone]; exact h.errDone)
  | some r =>
    have hb := State.busy_of_engine hs
    refine .of_running hwf hlegal (by rw [he, hs]; rfl) (hdone.trans (h.busyDone hb)) (herr.trans (h.busyErr hb))
      (((h.running r hs).logWrite a.toNat v).of_latch ?_)
    cases (r.logWrite a.toNat v).cmd.op <;> simp only [latch, pixelCount, hbsz, hsrc, hdst, hwidth]

theorem StepEffect.keeps_inv {es : List Event} (hinv : Inv s) (h : StepEffect s es (.next t)) : Inv t := by
  have hsame : RegsSame s { s with events := es } := ⟨rfl, rfl, rfl, rfl, rfl⟩
  cases h with
  | hostSide => exact hinv.of_flags_cleared rfl hsame rfl id (.inr rfl)
  | dropped => exact hinv.of_flags_cleared rfl hsame rfl id (.inr rfl)
  | @setCtrl v _ hidle =>
    obtain ⟨⟨-, hlegal⟩, -⟩ := legalCode_isGreatest s.platform (requestedCode v)
    exact .of_idle hinv.memWf hlegal (State.engine_eq_none_of_idle hidle) hinv.errDone
  | setSrc _ hidle => exact .of_idle hinv.memWf hinv.bszLegal (State.engine_eq_none_of_idle hidle) hinv.errDone
  | setDst _ hidle => exact .of_idle hinv.memWf hinv.bszLegal (State.engine_eq_none_of_idle hidle) hinv.errDone
  | setWidth _ hidle => exact .of_idle hinv.memWf hinv.bszLegal (State.engine_eq_none_of_idle hidle) hinv.errDone
  | @clearedFlags v =>
    refine hinv.of_flags_cleared rfl hsame rfl (fun hd => (Bool.and_eq_true _ _ ▸ hd).1) ?_
    show (if v.getLsbD 2 then none else s.error) = none ∨ (if v.getLsbD 2 then none else s.error) = s.error
    split_ifs
    · exact .inl rfl
    · exact .inr rfl
  | rejected _ ht =>
    exact .of_idle hinv.memWf hinv.bszLegal (State.engine_eq_none_of_idle ht.1) fun _ => rfl
  | accepted _ _ ha =>
    exact .of_running hinv.memWf hinv.bszLegal rfl rfl ha.1.2 ((runningOk_accepted hinv.memWf ha).of_latch rfl)
  | @hostWrote a => exact hinv.hostWrote a _ rfl rfl hsame ⟨rfl, rfl, rfl⟩
  | reset => exact applyReset_inv (hinv.of_flags_cleared rfl hsame rfl id (.inr rfl))
  | performed he hu =>
    have hok := hinv.running _ he
    have hb := State.busy_of_engine he
    exact .of_running (memoryWf_performUnit hinv.memWf hu hok.inRange) hinv.bszLegal rfl (hinv.busyDone hb)
      (hinv.busyErr hb) ((hok.withUnit hu _).of_latch rfl)
  | completed he =>
    refine .of_idle (memoryWf_completedMemory hinv.memWf (hinv.running _ he).inRange) hinv.bszLegal rfl fun herr => ?_
    have hnone : s.error = none := hinv.busyErr (State.busy_of_engine he)
    exact absurd (Option.isSome_iff_ne_none.1 herr) (not_not.2 hnone)
  | busFaulted he =>
    exact .of_idle (memoryWf_cutMemory hinv.memWf (hinv.running _ he).inRange) hinv.bszLegal rfl fun _ => rfl

theorem step_keeps_inv (hinv : Inv s) (h : step s = .next t) : Inv t := by
  obtain ⟨es, -, heffect⟩ := step_effect_of_next h
  exact heffect.keeps_inv hinv

end Sys2Proof.Machine
end

section
/-! SUPPORT. Every step keeps the running command's data right on the bytes the host has not raced (20_memory.md R57,
R62): its units write P of the source at acceptance, and every host write to its extents is logged. -/

namespace Sys2Proof.Machine

variable {s t : State} {r : Running} {u : WorkUnit}

/-! The bytes of the pixels in the two extents, which are apart. -/

theorem Latched.inSource_sourceAddr {c : Latched} {i k : Nat} (hi : i < c.count) (hk : k < 4) :
    c.inSource (c.sourceAddr i + k) = true := by
  rw [Latched.inSource_iff, Latched.sourceAddr]
  omega

theorem Latched.inDest_destAddr {c : Latched} {i k : Nat} (hi : i < c.count) (hk : k < 4) :
    c.inDest (c.destAddr i + k) = true := by
  rw [Latched.inDest_iff, Latched.destAddr]
  omega

theorem Latched.inDest_of_inSource {c : Latched} {a : Nat} (hd : overlaps c.src.toNat c.dst.toNat c.count = false)
    (ha : c.inSource a = true) : c.inDest a = false := by
  rw [overlaps_eq_false] at hd
  rw [Latched.inSource_iff] at ha
  rw [Bool.eq_false_iff, ne_eq, Latched.inDest_iff]
  omega

/-! What a unit reads. -/

theorem lanePixel_congr {x y : List Byte} {j j' : Nat}
    (h : ∀ k, k < 4 → x.getD (4 * j + k) 0 = y.getD (4 * j' + k) 0) : lanePixel x j = lanePixel y j' := by
  simpa [lanePixel] using And.intro (h 0 (by omega))
    (And.intro (h 1 (by omega)) (And.intro (h 2 (by omega)) (h 3 (by omega))))

theorem State.sourceBytes_getD {k a n j : Nat} (hj : j < n) :
    (s.sourceBytes r k a n).getD j 0 = s.sourceByte r (k + j) (a + j) := by
  simp [State.sourceBytes, hj]

theorem readBytes_getD {m : Memory} {a n j : Nat} (hj : j < n) : (readBytes m a n).getD j 0 = readByte m (a + j) := by
  simp [readBytes, hj]

/-- A unit reads a pixel the host has not raced as it was at acceptance (R57). -/
theorem lanePixel_unitInput (hdata : DataInv s r) (hu : u ∈ r.cmd.units) {j : Nat} (hj : j < u.pixels r.cmd.lanes)
    (hq : ∀ k, k < 4 → r.hostValues (r.cmd.sourceAddr (u.first r.cmd.lanes + j) + k) = []) :
    lanePixel (s.unitInput r u) j = pixelIn r.before r.cmd.src.toNat (u.first r.cmd.lanes + j) := by
  have hcount : u.first r.cmd.lanes + j < r.cmd.count := by
    have := Latched.units_within hu
    omega
  refine lanePixel_congr fun k hk => ?_
  have haddr : r.cmd.sourceAddr (u.first r.cmd.lanes) + (4 * j + k)
      = r.cmd.sourceAddr (u.first r.cmd.lanes + j) + k := by
    rw [Latched.sourceAddr, Latched.sourceAddr]
    omega
  rw [State.unitInput, State.sourceBytes_getD (by omega), haddr, s.sourceByte_of_quiet _ (hq k hk),
    hdata.source _ (Latched.inSource_sourceAddr hcount hk) (hq k hk), Nat.mul_zero, Nat.zero_add, readBytes_getD hk]
  rfl

/-! The data of a running command, by what can change it. -/

theorem DataInv.of_mem (h : DataInv s r) (hm : t.mem = s.mem) : DataInv t r where
  source a := by rw [hm]; exact h.source a
  dest i k := by rw [hm]; exact h.dest i k
  gray := h.gray

/-- A unit writes its pixels' bytes, each P of what it read, and no byte of the source. -/
theorem DataInv.performUnit (hm : memoryWf s.mem = true) (hok : RunningOk s r) (h : DataInv s r) (hu : u ∈ r.cmd.units)
    (hpend : r.isDone (u.first r.cmd.lanes) = false) :
    DataInv (s.performUnit r u) (r.withUnit u (s.unitInput r u)) := by
  have hnew {j : Nat} (hj : j < u.pixels r.cmd.lanes) : r.isDone (u.first r.cmd.lanes + j) = false :=
    (hok.doneUnits u hu j hj).trans hpend
  constructor
  case source =>
    intro a ha hq
    rw [readByte_performUnit_of_not_dest hu (Latched.inDest_of_inSource hok.disjoint ha)]
    exact h.source a ha hq
  case dest =>
    intro i k hi hk hq
    by_cases hin : i ∈ u.indices r.cmd.lanes
    · obtain ⟨j, hj, rfl⟩ := WorkUnit.mem_indices.1 hin
      rw [Running.withUnit_lookup_inside hj (hnew hj)]
      exact readByte_performUnit_inside hm hu hok.inRange hj hk
    · rw [Running.withUnit_lookup_outside hin]
      exact (readByte_performUnit_outside hin hk).trans (h.dest i k hi hk hq)
  case gray =>
    intro i y hi hy hq
    by_cases hin : i ∈ u.indices r.cmd.lanes
    · obtain ⟨j, hj, rfl⟩ := WorkUnit.mem_indices.1 hin
      rw [Running.withUnit_lookup_inside hj (hnew hj)] at hy
      rw [← Option.some.inj hy, lanePixel_unitInput h hu hj hq]
      rfl
    · rw [Running.withUnit_lookup_outside hin] at hy
      exact h.gray i y hi hy hq

@[simp] theorem Running.logWrite_cmd (a : Nat) (v : Byte) (r : Running) : (r.logWrite a v).cmd = r.cmd :=
  (Running.logWrite_cmd_done a v r).1

@[simp] theorem Running.logWrite_done (a : Nat) (v : Byte) (r : Running) : (r.logWrite a v).done = r.done :=
  (Running.logWrite_cmd_done a v r).2

@[simp] theorem Running.logWrite_before (a : Nat) (v : Byte) (r : Running) : (r.logWrite a v).before = r.before := by
  unfold Running.logWrite
  split <;> rfl

/-- A byte of the extents that is still unraced after a host write is another byte, unraced before it. -/
theorem Running.hostValues_of_logWrite {a b : Nat} {v : Byte} (hin : r.cmd.inSource b = true ∨ r.cmd.inDest b = true)
    (hq : (r.logWrite a v).hostValues b = []) : b ≠ a ∧ r.hostValues b = [] := by
  unfold Running.logWrite at hq
  split_ifs at hq with hlog
  · simp only [Running.hostValues, List.filter_append, List.map_append, List.append_eq_nil_iff] at hq
    refine ⟨?_, hq.1⟩
    rintro rfl
    simp at hq
  · refine ⟨?_, hq⟩
    rintro rfl
    simp_all

theorem DataInv.hostWrote (h : DataInv s r) {a : Nat} {v : Byte} (hm : t.mem = writeByte s.mem a v) :
    DataInv t (r.logWrite a v) := by
  constructor
  case source =>
    intro b hb hq
    rw [Running.logWrite_cmd] at hb
    obtain ⟨hne, hq⟩ := Running.hostValues_of_logWrite (.inl hb) hq
    rw [hm, readByte_writeByte_ne _ _ hne, Running.logWrite_before]
    exact h.source b hb hq
  case dest =>
    intro i k hi hk hq
    rw [Running.logWrite_cmd] at hi hq ⊢
    obtain ⟨hne, hq⟩ := Running.hostValues_of_logWrite (.inr (Latched.inDest_destAddr hi hk)) hq
    rw [hm, readByte_writeByte_ne _ _ hne, Running.logWrite_before, Running.logWrite_done]
    exact h.dest i k hi hk hq
  case gray =>
    intro i y hi hy hq
    rw [Running.logWrite_cmd] at hi hq ⊢
    rw [Running.logWrite_done] at hy
    rw [Running.logWrite_before]
    exact h.gray i y hi hy fun k hk =>
      (Running.hostValues_of_logWrite (.inl (Latched.inSource_sourceAddr hi hk)) (hq k hk)).2

/-- At acceptance no pixel is done and memory is M0 (R62). -/
theorem dataInv_accepted (c : Latched) (s : State) :
    DataInv s { cmd := c, before := s.mem, done := [], hostWrites := [] } :=
  ⟨fun _ _ _ => rfl, fun _ _ _ _ _ => rfl, nofun⟩

theorem DataOk.of_same (h : DataOk s) (hm : t.mem = s.mem) (he : t.engine = s.engine) : DataOk t :=
  fun r hr => (h r (he ▸ hr)).of_mem hm

theorem DataOk.of_idle (he : t.engine = none) : DataOk t := fun r hr => by simp [he] at hr

theorem DataOk.of_running (he : t.engine = some r) (h : DataInv t r) : DataOk t :=
  fun _ hq => Option.some.inj (he.symm.trans hq) ▸ h

theorem StepEffect.keeps_data {es : List Event} (hinv : Inv s) (hdata : DataOk s) (h : StepEffect s es (.next t)) :
    DataOk t := by
  cases h with
  | accepted => exact .of_running rfl (dataInv_accepted _ _)
  | hostWrote =>
    cases hs : s.engine with
    | none => exact .of_idle rfl
    | some r => exact .of_running rfl ((hdata r hs).hostWrote rfl)
  | reset =>
    obtain ⟨w, hw, -⟩ := applyReset_eq_clearRegisters { s with events := es }
    exact .of_idle (by rw [hw]; rfl)
  | performed he hu hpend =>
    have hunit := DataInv.performUnit hinv.memWf (hinv.running _ he) (hdata _ he) hu hpend
    exact .of_running rfl (hunit.of_mem rfl)
  | completed => exact .of_idle rfl
  | busFaulted => exact .of_idle rfl
  | _ => exact hdata.of_same rfl rfl

theorem step_keeps_data (hinv : Inv s) (hdata : DataOk s) (h : step s = .next t) : DataOk t := by
  obtain ⟨es, -, heffect⟩ := step_effect_of_next h
  exact heffect.keeps_data hinv hdata

end Sys2Proof.Machine
end

section
/-! SUPPORT. Which bytes of memory a step can change (20_memory.md R56, R60), and what a destination byte holds when its
pixel is done (40_pixelblock_transform.md R108, 60_exceptions.md R176). -/

namespace Sys2Proof.Machine

variable {s t : State} {r : Running} {u : WorkUnit} {a : Nat} {es : List Event}

/-! The bytes outside the destination extent. -/

theorem readByte_completedMemory_outside (h : r.cmd.inDest a = false) :
    readByte (s.completedMemory r) a = readByte s.mem a := by
  rw [State.completedMemory_eq_writeEach]
  refine readByte_writeEach_outside _ _ _ _ _ _ fun e _ hd heq => ?_
  simp [← heq, hd] at h

theorem completedMemory_of_quiet (s : State) (h : r.hostWrites = []) : s.completedMemory r = s.mem := by
  rw [State.completedMemory, h]
  rfl

theorem readByte_cutMemory_of_not_dest (h : r.cmd.inDest a = false) :
    readByte (s.cutMemory r) a = readByte s.mem a :=
  State.readByte_cutMemory_outside (by rw [h]; rfl)

theorem readByte_applyReset (h : ∀ r, s.engine = some r → r.cmd.inDest a = false) :
    readByte (applyReset s).mem a = readByte s.mem a := by
  cases he : s.engine with
  | none => rw [applyReset_of_idle he]; rfl
  | some r => rw [applyReset_mem_of_running he]; exact readByte_cutMemory_of_not_dest (h r he)

/-- A step leaves a byte alone that it does not write for the host and that is outside the running destination. -/
theorem StepEffect.readByte_frame (h : StepEffect s es (.next t))
    (hhost : ∀ addr v rest, s.events = .memWrite addr v :: rest → addr.toNat ≠ a)
    (hdest : ∀ r, s.engine = some r → r.cmd.inDest a = false) : readByte t.mem a = readByte s.mem a := by
  cases h with
  | hostWrote hw =>
    obtain ⟨rest, he⟩ := hw
    exact readByte_writeByte_ne _ _ (hhost _ _ rest he).symm
  | reset => exact readByte_applyReset (s := { s with events := es }) hdest
  | performed he hu => exact readByte_performUnit_of_not_dest hu (hdest _ he)
  | completed he => exact readByte_completedMemory_outside (hdest _ he)
  | busFaulted he => exact readByte_cutMemory_of_not_dest (hdest _ he)
  | _ => rfl

/-! The end of a command: every pixel done, or the port not admitting a byte. -/

/-- With no unit pending every pixel is done, since the units tile the pixels (30_encoding.md R87). -/
theorem RunningOk.isDone_of_pending_nil (h : RunningOk s r) (hp : r.pending = []) {i : Nat} (hi : i < r.cmd.count) :
    r.isDone i = true := by
  obtain ⟨u, hu, hin⟩ := Latched.exists_unit hi
  obtain ⟨j, hj, rfl⟩ := WorkUnit.mem_indices.1 hin
  rw [h.doneUnits u hu j hj]
  simpa using List.filter_eq_nil_iff.1 hp u hu

/-- The gray byte of a done pixel whose source the host has not raced. -/
theorem DataInv.lookup_of_done (h : DataInv s r) {i : Nat} (hi : i < r.cmd.count) (hdone : r.isDone i = true)
    (hq : ∀ k, k < 4 → r.hostValues (r.cmd.sourceAddr i + k) = []) :
    r.done.lookup i = some (pixelIn r.before r.cmd.src.toNat i).gray := by
  rw [Running.isDone_eq_isSome_lookup, Option.isSome_iff_exists] at hdone
  obtain ⟨y, hy⟩ := hdone
  rw [hy, h.gray i y hi hy hq]

/-- A destination byte is byte `(a - D) % 4` of pixel `(a - D) / 4` (20_memory.md R51). -/
theorem Latched.destAddr_of_inDest {c : Latched} (h : c.inDest a = true) :
    (a - c.dst.toNat) / 4 < c.count ∧ c.destAddr ((a - c.dst.toNat) / 4) + (a - c.dst.toNat) % 4 = a := by
  obtain ⟨hlo, hhi⟩ := (c.inDest_iff a).1 h
  rw [Latched.destAddr]
  omega

/-- An unraced destination byte of a done pixel is the final value. -/
theorem DataInv.readByte_of_done (h : DataInv s r) (hq : r.hostWrites = []) (hd : r.cmd.inDest a = true)
    (hdone : r.isDone ((a - r.cmd.dst.toNat) / 4) = true) : readByte s.mem a = finalByte r.cmd r.before a := by
  obtain ⟨hi, haddr⟩ := Latched.destAddr_of_inDest hd
  have hraced := Running.hostValues_of_nil hq
  have hbyte := h.dest _ ((a - r.cmd.dst.toNat) % 4) hi (Nat.mod_lt _ (by decide)) (hraced _)
  rw [h.lookup_of_done hi hdone fun k _ => hraced _, haddr] at hbyte
  exact hbyte

/-- The engine's own value of a done pixel's byte, the source unraced, is the final value. -/
theorem DataInv.engineByte_of_done (h : DataInv s r) (k : Nat) (hd : r.cmd.inDest a = true)
    (hdone : r.isDone ((a - r.cmd.dst.toNat) / 4) = true)
    (hq : ∀ b, r.cmd.inSource b = true → r.hostValues b = []) :
    s.engineByte r k a = finalByte r.cmd r.before a := by
  obtain ⟨hi, -⟩ := Latched.destAddr_of_inDest hd
  have hlookup := h.lookup_of_done hi hdone fun k hk => hq _ (Latched.inSource_sourceAddr hi hk)
  simp only [State.engineByte, State.enginePixel, hlookup, finalByte, Pixel.transform]

theorem engineStep_of_pending_nil (k : Nat) (he : s.engine = some r) (hp : r.pending = []) :
    engineStep k s = .next (s.complete r) := by
  have hnone : r.nextUnit k = none := Running.nextUnit_eq_none.2 hp
  simp only [engineStep, he, hnone]

theorem engineStep_of_not_admitted {k : Nat} (hinv : Inv s) (he : s.engine = some r) (hu : r.nextUnit k = some u)
    (hadm : unitAdmitted s.platform r.cmd u = false) : engineStep k s = .next (s.busFault r) := by
  have hspace := Latched.unitInSpace_of_inRange (Running.nextUnit_mem hu).1 (hinv.running r he).inRange
  simp only [engineStep, he, hu, hspace, hadm]
  rfl

/-- STATUS after BusFault: ERRCODE 5, ERR, and DROP as it was (10_state.md R28). -/
theorem statusWord_busFault (s : State) (r : Running) :
    statusWord (s.busFault r) = if s.drop then 0x50C else 0x504 := by
  have hword : statusWord (s.busFault r) = (0 : BitVec 20) ++ errorCode .busFault ++ (0 : BitVec 4)
      ++ BitVec.ofBool s.drop ++ BitVec.ofBool true ++ BitVec.ofBool false ++ BitVec.ofBool false := rfl
  rw [hword]
  cases s.drop <;> rfl

end Sys2Proof.Machine
end

section
/-! SUPPORT. An accepted command with a quiet host runs to DONE and converts its pixels (40_pixelblock_transform.md
R110, R111, 41_row_driver.md R146): what holds of it at each step, and its end by the bound on the work left. -/

namespace Sys2Proof.Machine

variable {s₀ s t : State} {c : Latched} {es : List Event}

/-- An acceptable request is accepted (30_encoding.md R86). -/
theorem exec_of_acceptable {i : Instr} (h : Acceptable i s) :
    exec i s = .next (accept (latch i s) { s with doneFlag := false }) := by
  obtain ⟨htakes, hpos, hrange, hoverlap, hordinary⟩ := h
  have hnonzero : ¬ (i = .row ∧ pixelCount i s = 0) := fun hz => hpos.ne' hz.2
  have hin : ¬ (s.src.toNat + 4 * pixelCount i s > 2 ^ 32 ∨ s.dst.toNat + 4 * pixelCount i s > 2 ^ 32) := by
    rw [← outOfRange_iff, hrange]; decide
  have hapart : ¬ (s.src.toNat < s.dst.toNat + 4 * pixelCount i s
      ∧ s.dst.toNat < s.src.toNat + 4 * pixelCount i s) := by
    rw [← overlaps_iff, hoverlap]; decide
  have hchecks := exec_follows_checks i htakes
  simp only [if_neg hnonzero, if_neg hin, if_neg hapart] at hchecks
  exact hchecks hordinary

/-- What holds while the command `c`, accepted when the machine was `s₀`, is under way with a quiet host. -/
structure Converting (s₀ : State) (c : Latched) (s : State) : Prop where
  inv      : Inv s
  data     : DataOk s
  quiet    : HostQuiet s
  admitted : ExtentsAdmitted s.platform c.src.toNat c.dst.toNat c.count
  regs     : RegsSame s₀ s
  engine   : ∃ r, s.engine = some r ∧ r.cmd = c ∧ r.before = s₀.mem ∧ r.hostWrites = []
  frame    : ∀ a, c.inDest a = false → readByte s.mem a = readByte s₀.mem a

/-- The command `c` has ended with DONE and converted its pixels from memory at acceptance. -/
def ConversionDone (s₀ : State) (c : Latched) (t : State) : Prop :=
  t.busy = false ∧ t.doneFlag = true ∧ t.error = none
    ∧ Converted s₀.mem c.src.toNat c.dst.toNat c.count t.mem ∧ RegsSame s₀ t

theorem RegsSame.trans {s t w : State} (h : RegsSame s t) (h' : RegsSame t w) : RegsSame s w := by
  obtain ⟨hp, hb, hs, hd, hw⟩ := h
  obtain ⟨hp', hb', hs', hd', hw'⟩ := h'
  exact ⟨hp'.trans hp, hb'.trans hb, hs'.trans hs, hd'.trans hd, hw'.trans hw⟩

theorem HostQuiet.of_sublist (h : HostQuiet s) (he : t.events.Sublist s.events) (hp : t.platform = s.platform) :
    HostQuiet t :=
  ⟨h.1.of_sublist he hp, fun e hmem => h.2 e (he.subset hmem)⟩

/-- A quiet host's next event is no write of memory. -/
theorem HostQuiet.not_memWrite (h : HostQuiet s) {a : Addr} {v : Byte} {rest : List Event} :
    s.events ≠ .memWrite a v :: rest :=
  fun he => nomatch h.2 (.memWrite a v) (by simp [he])

theorem HostQuiet.not_reset (h : HostQuiet s) : ¬ NextResets s :=
  fun ⟨_, he⟩ => nomatch (h.1 .reset (by simp [he])).2

/-- Within admitted extents every unit's bytes are admitted (20_memory.md R60). -/
theorem unitAdmitted_of_extentsAdmitted {p : Platform} {u : WorkUnit} (hu : u ∈ c.units)
    (h : ExtentsAdmitted p c.src.toNat c.dst.toNat c.count) : unitAdmitted p c u = true := by
  have hwithin := Latched.units_within hu
  have hrange (j : Nat) (hj : j < 4 * u.pixels c.lanes) := h (4 * u.first c.lanes + j) (by omega)
  simp only [unitAdmitted, admitsRange, Latched.sourceAddr, Latched.destAddr, Bool.and_eq_true, List.all_eq_true,
    List.mem_range, Nat.add_assoc]
  exact ⟨fun j hj => (hrange j hj).1, fun j hj => (hrange j hj).2⟩

/-- A step with a command under way and a quiet host keeps the command and the registers, or completes it. -/
theorem StepEffect.of_quiet (h : StepEffect s es (.next t)) {r : Running} (he : s.engine = some r)
    (hquiet : HostQuiet s) (hadm : ExtentsAdmitted s.platform r.cmd.src.toNat r.cmd.dst.toNat r.cmd.count) :
    t.events = es ∧ RegsSame s t ∧
      ((∃ r', t.engine = some r' ∧ r'.cmd = r.cmd ∧ r'.before = r.before ∧ r'.hostWrites = r.hostWrites)
        ∨ r.pending = [] ∧ t = State.complete r { s with events := es }) := by
  have hbusy : s.busy = true := State.busy_of_engine he
  have hregs : RegsSame s { s with events := es } := ⟨rfl, rfl, rfl, rfl, rfl⟩
  have hsame : ∃ r', s.engine = some r' ∧ r'.cmd = r.cmd ∧ r'.before = r.before ∧ r'.hostWrites = r.hostWrites :=
    ⟨r, he, rfl, rfl, rfl⟩
  cases h with
  | setCtrl _ hidle => exact nomatch hbusy.symm.trans hidle
  | setSrc _ hidle => exact nomatch hbusy.symm.trans hidle
  | setDst _ hidle => exact nomatch hbusy.symm.trans hidle
  | setWidth _ hidle => exact nomatch hbusy.symm.trans hidle
  | rejected _ htakes => exact nomatch hbusy.symm.trans htakes.1
  | accepted _ _ hacc => exact nomatch hbusy.symm.trans hacc.1.1
  | hostWrote hw => exact hw.elim fun _ hev => absurd hev hquiet.not_memWrite
  | reset hnext => exact absurd hnext hquiet.not_reset
  | performed hr =>
    obtain rfl := Option.some.inj (he.symm.trans hr)
    exact ⟨rfl, hregs, .inl ⟨_, rfl, rfl, rfl, rfl⟩⟩
  | completed hr hp =>
    obtain rfl := Option.some.inj (he.symm.trans hr)
    exact ⟨rfl, hregs, .inr ⟨hp, rfl⟩⟩
  | busFaulted hr hu hno =>
    obtain rfl := Option.some.inj (he.symm.trans hr)
    rw [unitAdmitted_of_extentsAdmitted hu hadm] at hno
    cases hno
  | _ => exact ⟨rfl, hregs, .inl hsame⟩

/-- With every pixel done memory holds the converted extent. -/
theorem Converting.converted (h : Converting s₀ c s) {r : Running} (he : s.engine = some r) (hp : r.pending = []) :
    Converted s₀.mem c.src.toNat c.dst.toNat c.count s.mem := by
  obtain ⟨r', hr', rfl, hbefore, hq⟩ := h.engine
  obtain rfl := Option.some.inj (he.symm.trans hr')
  refine ⟨fun i k hi hk => ?_, h.frame⟩
  have hdone := (h.inv.running r he).isDone_of_pending_nil hp hi
  have hbyte := (h.data r he).dest i k hi hk (Running.hostValues_of_nil hq _)
  rw [(h.data r he).lookup_of_done hi hdone fun _ _ => Running.hostValues_of_nil hq _, hbefore] at hbyte
  exact hbyte

theorem Converting.step (h : Converting s₀ c s) (hstep : step s = .next t) :
    Converting s₀ c t ∨ ConversionDone s₀ c t := by
  obtain ⟨r, he, rfl, hbefore, hq⟩ := h.engine
  obtain ⟨es, hes, heffect⟩ := step_effect_of_next hstep
  obtain ⟨hevents, hregs, ⟨r', hr', hcmd, hbefore', hq'⟩ | ⟨hp, rfl⟩⟩ := heffect.of_quiet he h.quiet h.admitted
  · have hsub : t.events.Sublist s.events := hevents ▸ hes
    refine .inl ⟨step_keeps_inv h.inv hstep, step_keeps_data h.inv h.data hstep, h.quiet.of_sublist hsub hregs.1,
      hregs.1 ▸ h.admitted, h.regs.trans hregs, ⟨r', hr', hcmd, hbefore'.trans hbefore, hq'.trans hq⟩, fun a ha => ?_⟩
    have hframe := heffect.readByte_frame (a := a) (fun _ _ _ hev => absurd hev h.quiet.not_memWrite)
      fun q hr => Option.some.inj (he.symm.trans hr) ▸ ha
    exact hframe.trans (h.frame a ha)
  · refine .inr ⟨rfl, rfl, h.inv.busyErr (State.busy_of_engine he), ?_, h.regs.trans hregs⟩
    have hmem : (State.complete r { s with events := es }).mem = s.mem := completedMemory_of_quiet _ hq
    rw [hmem]
    exact h.converted he hp

/-- A run that leaves BUSY passes the completion of the command. -/
theorem Converting.run {k : Nat} (h : Converting s₀ c s) (hrun : runSteps k s = .next t) (hidle : t.busy = false) :
    ∃ j w, runSteps j s = .next w ∧ ConversionDone s₀ c w := by
  induction k generalizing s with
  | zero =>
    cases hrun
    obtain ⟨r, he, -⟩ := h.engine
    exact nomatch (State.busy_of_engine he).symm.trans hidle
  | succ k ih =>
    cases hstep : Machine.step s with
    | fault f => simp [runSteps, hstep] at hrun
    | refused x => simp [runSteps, hstep] at hrun
    | next s' =>
      simp only [runSteps, hstep] at hrun
      rcases h.step hstep with hgoing | hdone
      · obtain ⟨j, w, hw, hdone⟩ := ih hgoing hrun
        exact ⟨j + 1, w, by simp only [runSteps, hstep, hw], hdone⟩
      · exact ⟨1, s', by simp only [runSteps, hstep], hdone⟩

theorem converting_accepted {i : Instr} (hinv : Inv s) (ha : Acceptable i s) (hquiet : HostQuiet s)
    (hadm : ExtentsAdmitted s.platform s.src.toNat s.dst.toNat (pixelCount i s)) :
    Converting s (latch i s) (accept (latch i s) { s with doneFlag := false }) where
  inv := .of_running hinv.memWf hinv.bszLegal rfl rfl ha.1.2 ((runningOk_accepted hinv.memWf ha).of_latch rfl)
  data := .of_running rfl (dataInv_accepted _ _)
  quiet := hquiet
  admitted := hadm
  regs := ⟨rfl, rfl, rfl, rfl, rfl⟩
  engine := ⟨_, rfl, rfl, rfl, rfl⟩
  frame _ _ := rfl

/-- PIXEL, BLOCK and ROW convert their pixels (R110, R111, R146). -/
theorem exec_converts {i : Instr} (hinv : Inv s) (ha : Acceptable i s) (hquiet : HostQuiet s)
    (hadm : ExtentsAdmitted s.platform s.src.toNat s.dst.toNat (pixelCount i s)) :
    NextWith (exec i s) fun t => t.busy = true ∧ t.doneFlag = false ∧
      ∃ k w, runSteps k t = .next w ∧ w.busy = false ∧ w.doneFlag = true ∧ w.error = none
        ∧ Converted s.mem s.src.toNat s.dst.toNat (pixelCount i s) w.mem ∧ RegsSame s w := by
  have hstart := converting_accepted hinv ha hquiet hadm
  obtain ⟨r, he, -⟩ := hstart.engine
  obtain ⟨k, t, hrun, hend⟩ := underway_ends _ r (hstart.inv.underway hquiet.1 he)
  obtain ⟨j, w, hw, hdone⟩ := hstart.run hrun hend.1
  exact ⟨_, exec_of_acceptable ha, rfl, rfl, j, w, hw, hdone⟩

/-- What a conversion leaves is a function of memory at acceptance and the extents (R146). -/
theorem Converted.readByte_eq {m₀ m m' : Memory} {src dst n : Nat} (h : Converted m₀ src dst n m)
    (h' : Converted m₀ src dst n m') (a : Nat) : readByte m' a = readByte m a := by
  cases hin : inExtent dst n a with
  | false => rw [h.2 a hin, h'.2 a hin]
  | true =>
    obtain ⟨hlo, hhi⟩ := (inExtent_iff dst n a).1 hin
    have haddr : dst + 4 * ((a - dst) / 4) + (a - dst) % 4 = a := by omega
    have hi : (a - dst) / 4 < n := by omega
    have hk : (a - dst) % 4 < 4 := Nat.mod_lt _ (by decide)
    rw [← haddr, h.1 _ _ hi hk, h'.1 _ _ hi hk]

end Sys2Proof.Machine
end

section
/-! PROOF. The invariants over every step, and the steps that stop (10_state.md R28, R31, 20_memory.md R57, R62,
60_exceptions.md R178). -/

namespace Sys2Proof.Proofs.Invariants

open Sys2Proof Sys2Proof.Machine

/-- Settles O47: after reset memory lists nothing, no flag is set and no command runs. -/
theorem invariantHoldsAtReset : Obligations.InvariantHoldsAtReset :=
  ⟨.of_idle rfl (supports_zero _) rfl nofun, .of_idle rfl⟩

/-- Settles O48, by what each step does to the registers, memory and the running command. -/
theorem stepKeepsInvariant : Obligations.StepKeepsInvariant := fun _ _ => step_keeps_inv

/-- Settles O49: a unit writes P of the source at acceptance, and a host write to an extent is logged as a race. -/
theorem stepKeepsCommandData : Obligations.StepKeepsCommandData := fun _ _ => step_keeps_data

/-- Settles O50: the one fault is the engine's, beyond the extents that the Range check admitted. -/
theorem stepNeverFaults : Obligations.StepNeverFaults := by
  intro s hinv f hf
  obtain ⟨es, -, heffect⟩ := step_effect s
  rw [hf] at heffect
  cases heffect with
  | outside he hu hout => simp [Latched.unitInSpace_of_inRange hu (hinv.running _ he).inRange] at hout

/-- Settles O52: a mark is only ever set. -/
theorem marksAreNeverCleared : Obligations.MarksAreNeverCleared := by
  intro s t h
  obtain ⟨es, -, heffect⟩ := step_effect_of_next h
  cases heffect with
  | hostSide _ _ _ _ _ hracy hstopped => exact ⟨hracy, id, hstopped⟩
  | hostWrote => exact ⟨fun hr => by simp [State.afterWrite_racy, hr], id, id⟩
  | reset =>
    obtain ⟨hracy, hstopped, hcut⟩ := applyReset_marks { s with events := es }
    exact ⟨hracy.trans, hcut, hstopped.trans⟩
  | _ => exact ⟨id, id, id⟩

end Sys2Proof.Proofs.Invariants
end

section
/-! PROOF. The statements on the units and on the engine's steps (41_row_driver.md R143, R147, 60_exceptions.md R176,
20_memory.md R56, R57, R62). -/

namespace Sys2Proof.Proofs.Engine

open Sys2Proof Sys2Proof.Machine

/-- Settles O32: blocks tile the first nb pixels, scalar units the rest, and disjoint extents bound the count. -/
theorem unitsCoverEachPixelOnce : Obligations.UnitsCoverEachPixelOnce :=
  ⟨Latched.flatMap_indices_units, fun _ _ => Latched.units_within, fun _ _ => Acceptable.pixelCount_le⟩

/-- Settles O35: a unit, a completion and a cut write bytes of the destination alone. -/
theorem engineStepFrame : Obligations.EngineStepFrame := by
  intro k s t h
  have hframe (a : Nat) (ha : ∀ r, s.engine = some r → r.cmd.inDest a = false) :
      readByte t.mem a = readByte s.mem a := by
    have heffect := h ▸ engineStep_effect k { s with events := [] } s.events
    exact heffect.readByte_frame (fun _ _ _ hev => nomatch hev) ha
  rcases engineStep_cases k s with ⟨-, e⟩ | ⟨r, -, ⟨-, e⟩ | ⟨u, -, -, -, ⟨-, e⟩ | ⟨-, -, e⟩ | ⟨-, -, e⟩⟩⟩ <;>
    cases e.symm.trans h <;> exact ⟨⟨rfl, rfl, rfl, rfl, rfl⟩, rfl, rfl, rfl, rfl, rfl, rfl, hframe⟩

/-- Settles O36: the step cuts the command short, and an unraced draw is the old byte or the final one. -/
theorem busFaultStops : Obligations.BusFaultStops := by
  intro s r u k hinv hdata he hq hu hadm
  refine ⟨s.busFault r, engineStep_of_not_admitted hinv he hu hadm, rfl, rfl, rfl, statusWord_busFault s r,
    ⟨rfl, rfl, rfl, rfl, rfl⟩, fun a hd ha => ?_, fun a ha => State.readByte_cutMemory_outside ha⟩
  exact State.readByte_cutMemory_old_or_final hinv.memWf (hinv.running r he) (hdata r he) hq hd ha

/-- Settles O38: with nothing pending every pixel is done, and an unraced completion writes no byte. -/
theorem completedCommandHoldsFinalValues : Obligations.CompletedCommandHoldsFinalValues := by
  intro s r k hinv hdata he hq hp
  have hmem : (s.complete r).mem = s.mem := completedMemory_of_quiet s hq
  refine ⟨s.complete r, engineStep_of_pending_nil k he hp, rfl, rfl, fun a ha => ?_, fun a _ => by rw [hmem]⟩
  have hdone := (hinv.running r he).isDone_of_pending_nil hp (Latched.destAddr_of_inDest ha).1
  rw [hmem, (hdata r he).readByte_of_done hq ha hdone]

end Sys2Proof.Proofs.Engine
end

section
/-! PROOF. PIXEL, BLOCK and ROW complete and convert their pixels (40_pixelblock_transform.md R110, R111,
41_row_driver.md R140, R146). -/

namespace Sys2Proof.Proofs.Conversion

open Sys2Proof Sys2Proof.Machine

/-- Settles O39, for PIXEL's one pixel. -/
theorem pixelConvertsOnePixel : Obligations.PixelConvertsOnePixel := fun _ => exec_converts (i := .pixel)

/-- Settles O40, for BLOCK's B pixels. -/
theorem blockConvertsItsLanes : Obligations.BlockConvertsItsLanes := fun _ => exec_converts (i := .block)

/-- Settles O41, for ROW's WIDTH pixels. -/
theorem rowConvertsItsPixels : Obligations.RowConvertsItsPixels := fun _ => exec_converts (i := .row)

/-- Settles O42: both runs convert the same pixels of the same memory, which fixes every byte. -/
theorem rowDoesNotDependOnBlockSize : Obligations.RowDoesNotDependOnBlockSize := by
  intro s c hinv hsup ha hquiet hadm
  have hinv' : Inv { s with bsz := c } :=
    .of_idle hinv.memWf hsup (State.engine_eq_none_of_idle ha.1.1) hinv.errDone
  obtain ⟨t, hexec, -, -, k, w, hrun, -, hdone, -, hconv, -⟩ := exec_converts (i := .row) hinv ha hquiet hadm
  obtain ⟨t', hexec', -, -, k', w', hrun', -, hdone', -, hconv', -⟩ :=
    exec_converts (i := .row) (s := { s with bsz := c }) hinv' ha hquiet hadm
  exact ⟨t, t', k, k', w, w', hexec, hexec', hrun, hrun', hdone, hdone', hconv.readByte_eq hconv'⟩

end Sys2Proof.Proofs.Conversion
end

section
/-! SUPPORT. What a step does to each bit of STATUS (10_state.md R28, R37), and command requests on side-effecting
memory (20_memory.md R59). -/

namespace Sys2Proof.Machine

variable {s t : State} {es : List Event}

/-- After a reset the flags are 0 (10_state.md R36). -/
theorem applyReset_flags (s : State) : (applyReset s).busy = false ∧ (applyReset s).doneFlag = false
    ∧ (applyReset s).error = none ∧ (applyReset s).drop = false := by
  obtain ⟨w, hw, -⟩ := applyReset_eq_clearRegisters s
  rw [hw]
  exact ⟨rfl, rfl, rfl, rfl⟩

/-- BUSY: set by the acceptance of a command, cleared by completion, BusFault and reset. -/
theorem StepEffect.busy_cases (h : StepEffect s es (.next t)) : t.busy = s.busy
    ∨ (t.busy = true ∧ TakesCommands s ∧ ∃ v i, NextWrites s 0x14 v ∧ decode v = .ok i)
    ∨ (t.busy = false ∧ ((t.doneFlag = true ∧ t.error = s.error) ∨ (t.doneFlag = false ∧ t.error = some .busFault)
      ∨ NextResets s)) := by
  cases h with
  | accepted hw hd ha => exact .inr (.inl ⟨rfl, ha.1, _, _, hw, hd⟩)
  | hostWrote => exact .inl Option.isSome_map
  | reset hnext => exact .inr (.inr ⟨(applyReset_flags _).1, .inr (.inr hnext)⟩)
  | performed he => exact .inl (State.busy_of_engine he).symm
  | completed => exact .inr (.inr ⟨rfl, .inl ⟨rfl, rfl⟩⟩)
  | busFaulted => exact .inr (.inr ⟨rfl, .inr (.inl ⟨rfl, rfl⟩)⟩)
  | _ => exact .inl rfl

/-- DONE: set by completion, cleared by a request that is taken, its W1C bit and reset, and 0 after BusFault. -/
theorem StepEffect.done_cases (h : StepEffect s es (.next t)) : t.doneFlag = s.doneFlag
    ∨ (t.doneFlag = true ∧ s.busy = true ∧ t.busy = false)
    ∨ (t.doneFlag = false ∧ ((∃ v, NextWrites s 0x14 v ∧ TakesCommands s)
      ∨ (∃ v, NextWrites s 0x18 v ∧ v.getLsbD 1 = true) ∨ NextResets s ∨ s.busy = true)) := by
  cases h with
  | @clearedFlags v hw =>
    cases hv : v.getLsbD 1 with
    | false => exact .inl (by simp)
    | true => exact .inr (.inr ⟨by simp, .inr (.inl ⟨v, hw, hv⟩)⟩)
  | rejected hw ht => exact .inr (.inr ⟨rfl, .inl ⟨_, hw, ht⟩⟩)
  | accepted hw _ ha => exact .inr (.inr ⟨rfl, .inl ⟨_, hw, ha.1⟩⟩)
  | reset hnext => exact .inr (.inr ⟨(applyReset_flags _).2.1, .inr (.inr (.inl hnext))⟩)
  | completed he => exact .inr (.inl ⟨rfl, State.busy_of_engine he, rfl⟩)
  | busFaulted he => exact .inr (.inr ⟨rfl, .inr (.inr (.inr (State.busy_of_engine he)))⟩)
  | _ => exact .inl rfl

/-- ERR and ERRCODE: set by a request that is taken and by BusFault, cleared by the W1C bit of ERR and by reset. -/
theorem StepEffect.error_cases (h : StepEffect s es (.next t)) : t.error = s.error
    ∨ (∃ e, t.error = some e ∧ e ≠ .busFault ∧ ∃ v, NextWrites s 0x14 v ∧ TakesCommands s)
    ∨ (t.error = some .busFault ∧ s.busy = true ∧ t.busy = false)
    ∨ (t.error = none ∧ ((∃ v, NextWrites s 0x18 v ∧ v.getLsbD 2 = true) ∨ NextResets s)) := by
  cases h with
  | @clearedFlags v hw =>
    cases hv : v.getLsbD 2 with
    | false => exact .inl rfl
    | true => exact .inr (.inr (.inr ⟨rfl, .inl ⟨v, hw, hv⟩⟩))
  | rejected hw ht hne => exact .inr (.inl ⟨_, rfl, hne, _, hw, ht⟩)
  | reset hnext => exact .inr (.inr (.inr ⟨(applyReset_flags _).2.2.1, .inr hnext⟩))
  | busFaulted he => exact .inr (.inr (.inl ⟨rfl, State.busy_of_engine he, rfl⟩))
  | _ => exact .inl rfl

/-- DROP: set by a write that is dropped, cleared by its W1C bit and by reset. -/
theorem StepEffect.drop_cases (h : StepEffect s es (.next t)) : t.drop = s.drop
    ∨ (t.drop = true ∧ ∃ off v, NextWrites s off v
      ∧ ((s.busy = true ∧ off ∈ [0x04, 0x08, 0x0C, 0x10, 0x14]) ∨ (s.error.isSome = true ∧ off = 0x14)))
    ∨ (t.drop = false ∧ ((∃ v, NextWrites s 0x18 v ∧ v.getLsbD 3 = true) ∨ NextResets s)) := by
  cases h with
  | dropped hw why => exact .inr (.inl ⟨rfl, _, _, hw, why⟩)
  | @clearedFlags v hw =>
    cases hv : v.getLsbD 3 with
    | false => exact .inl (by simp)
    | true => exact .inr (.inr ⟨by simp, .inl ⟨v, hw, hv⟩⟩)
  | reset hnext => exact .inr (.inr ⟨(applyReset_flags _).2.2.2, .inr hnext⟩)
  | _ => exact .inl rfl

/-- The step of a CMD write, by whatever address, is the command of its word (30_encoding.md R85, R86). -/
theorem step_of_nextWrites_cmd {v : Word} {i : Instr} (hw : NextWrites s 0x14 v) (hd : decode v = .ok i) :
    step s = exec i { s with events := s.events.tail } := by
  obtain ⟨x, rest, he, hoff⟩ := hw
  have hresolve : resolveAccess s.platform x .word = .register 0x14 := by
    rw [resolveAccess, hoff]
    rfl
  rw [step_of_events he, he, perform, hostWrite, hresolve]
  simp only [writeOffset_cmd, writeCmd, hd, List.tail_cons]

/-! Side effects in an extent (20_memory.md R59). -/

/-- A region meets the range exactly when some byte of the range lies in it. -/
theorem exists_inRegion_iff (q : Region) (lo len : Nat) :
    max lo q.base < min (lo + len) (q.base + q.size) ↔ ∃ j, j < len ∧ inRegion q (lo + j) = true := by
  simp only [inRegion, Bool.and_eq_true, decide_eq_true_eq]
  constructor
  · intro h
    exact ⟨max lo q.base - lo, by omega, by omega, by omega⟩
  · rintro ⟨j, hj, hlo, hhi⟩
    omega

theorem touchesSideEffecting_iff (p : Platform) (lo len : Nat) :
    touchesSideEffecting p lo len = true ↔ ∃ j, j < len ∧ sideEffecting p (lo + j) = true := by
  simp only [touchesSideEffecting, sideEffecting, List.any_eq_true, Bool.and_eq_true, decide_eq_true_eq,
    exists_inRegion_iff]
  constructor
  · rintro ⟨q, hq, hkind, j, hj, hin⟩
    exact ⟨j, hj, q, hq, hkind, hin⟩
  · rintro ⟨j, hj, q, hq, hkind, hin⟩
    exact ⟨q, hq, hkind, j, hj, hin⟩

theorem not_extentsOrdinary_iff (p : Platform) (src dst n : Nat) : ¬ ExtentsOrdinary p src dst n ↔
    ∃ j, j < 4 * n ∧ (sideEffecting p (src + j) = true ∨ sideEffecting p (dst + j) = true) := by
  rw [ExtentsOrdinary, not_and_or, Bool.not_eq_false, Bool.not_eq_false, touchesSideEffecting_iff,
    touchesSideEffecting_iff, ← exists_or]
  simp only [and_or_left]

end Sys2Proof.Machine
end

section
/-! PROOF. The statements about every step: what changes the registers, STATUS and memory, and what is refused
(10_state.md R22 to R37, 20_memory.md R56, R59). -/

namespace Sys2Proof.Proofs.EveryStep

open Sys2Proof Sys2Proof.Machine

/-- Settles O14: of the ways a step can go, four writes and reset touch a register other than STATUS. -/
theorem registersChangeOnlyByWritesOrReset : Obligations.RegistersChangeOnlyByWritesOrReset := by
  intro s t h
  obtain ⟨es, -, heffect⟩ := step_effect_of_next h
  cases heffect with
  | setCtrl hw hidle => exact ⟨.inl rfl, .inl rfl, .inl rfl, .inr (.inl ⟨hidle, _, hw, rfl⟩)⟩
  | setSrc hw hidle => exact ⟨.inr (.inl ⟨hidle, hw⟩), .inl rfl, .inl rfl, .inl rfl⟩
  | setDst hw hidle => exact ⟨.inl rfl, .inr (.inl ⟨hidle, hw⟩), .inl rfl, .inl rfl⟩
  | setWidth hw hidle => exact ⟨.inl rfl, .inl rfl, .inr (.inl ⟨hidle, hw⟩), .inl rfl⟩
  | reset hnext =>
    obtain ⟨w, hw, -⟩ := applyReset_eq_clearRegisters { s with events := es }
    rw [hw]
    exact ⟨.inr (.inr ⟨hnext, rfl⟩), .inr (.inr ⟨hnext, rfl⟩), .inr (.inr ⟨hnext, rfl⟩), .inr (.inr ⟨hnext, rfl⟩)⟩
  | _ => exact ⟨.inl rfl, .inl rfl, .inl rfl, .inl rfl⟩

/-- Settles O15, bit by bit; the invariant excludes a DONE or an error that stands while a command runs. -/
theorem statusBitsChangeOnlyAsTabled : Obligations.StatusBitsChangeOnlyAsTabled := by
  intro s t hinv h
  obtain ⟨es, -, heffect⟩ := step_effect_of_next h
  refine ⟨fun hs ht => ?_, fun hs ht => ?_, fun hs ht => ?_, fun hs ht => ?_, fun e he => ?_, fun hs ht => ?_,
    fun hs ht => ?_, fun hs ht => ?_⟩
  · rcases heffect.busy_cases with e | ⟨-, htakes, v, i, hw, hd⟩ | ⟨e, -⟩
    · exact nomatch ht.symm.trans (e.trans hs)
    · exact ⟨v, i, hw, hd, htakes⟩
    · exact nomatch ht.symm.trans e
  · rcases heffect.busy_cases with e | ⟨e, -⟩ | ⟨-, ⟨hdone, herr⟩ | hfault | hreset⟩
    · exact nomatch ht.symm.trans (e.trans hs)
    · exact nomatch ht.symm.trans e
    · exact .inl ⟨hdone, herr.trans (hinv.busyErr hs)⟩
    · exact .inr (.inl hfault)
    · exact .inr (.inr hreset)
  · rcases heffect.done_cases with e | ⟨-, hends⟩ | ⟨e, -⟩
    · exact nomatch ht.symm.trans (e.trans hs)
    · exact hends
    · exact nomatch ht.symm.trans e
  · rcases heffect.done_cases with e | ⟨e, -⟩ | ⟨-, hcmd | hclear | hreset | hbusy⟩
    · exact nomatch ht.symm.trans (e.trans hs)
    · exact nomatch ht.symm.trans e
    · exact .inl hcmd
    · exact .inr (.inl hclear)
    · exact .inr (.inr hreset)
    · exact nomatch hs.symm.trans (hinv.busyDone hbusy)
  · rcases heffect.error_cases with herr | ⟨e', herr, hne, v, hw, htakes⟩ | ⟨herr, hbusy, hidle⟩ | ⟨herr, -⟩
    · exact .inl (herr.symm.trans he)
    · obtain rfl := Option.some.inj (herr.symm.trans he)
      exact .inr ⟨htakes.2, .inl ⟨hne, v, hw, htakes⟩⟩
    · obtain rfl := Option.some.inj (herr.symm.trans he)
      exact .inr ⟨hinv.busyErr hbusy, .inr ⟨rfl, hbusy, hidle⟩⟩
    · exact nomatch herr.symm.trans he
  · rcases heffect.error_cases with herr | ⟨e, herr, -⟩ | ⟨herr, -⟩ | ⟨-, hclear⟩
    · exact nomatch (congrArg Option.isSome (herr.symm.trans ht)).symm.trans hs
    · exact nomatch herr.symm.trans ht
    · exact nomatch herr.symm.trans ht
    · exact hclear
  · rcases heffect.drop_cases with e | ⟨-, hdropped⟩ | ⟨e, -⟩
    · exact nomatch ht.symm.trans (e.trans hs)
    · exact hdropped
    · exact nomatch ht.symm.trans e
  · rcases heffect.drop_cases with e | ⟨e, -⟩ | ⟨-, hclear⟩
    · exact nomatch ht.symm.trans (e.trans hs)
    · exact nomatch ht.symm.trans e
    · exact hclear

/-- Settles O43: the frame of a step, read the other way. -/
theorem memoryChangesOnlyWhereAllowed : Obligations.MemoryChangesOnlyWhereAllowed := by
  intro s t a h hne
  obtain ⟨es, -, heffect⟩ := step_effect_of_next h
  by_contra hno
  obtain ⟨hhost, hdest⟩ := not_or.1 hno
  refine hne (heffect.readByte_frame (fun addr v rest he ha => hhost ⟨v, addr, rest, he, ha⟩) fun r he => ?_)
  exact Bool.eq_false_iff.2 fun hd => hdest ⟨r, he, hd⟩

/-- Settles O51: the three refusals of a step, each with its event. -/
theorem refusalsAreOnlyTheNamedOnes : Obligations.RefusalsAreOnlyTheNamedOnes := by
  intro s x hx
  obtain ⟨es, -, heffect⟩ := step_effect s
  rw [hx] at heffect
  cases heffect with
  | @misformed e rest p w hnext haccess hform =>
    refine ⟨e, rest, hnext, .inl ⟨rfl, p, w, haccess, (resolveAccess_misformed hform).imp_left ?_⟩⟩
    rintro ⟨off, hoff, hno⟩
    refine ⟨off, hoff, not_and_or.1 fun hform => ?_⟩
    simp [accessAdmitted_iff.2 hform] at hno
  | @refusedCommand v i hw htakes hd hext =>
    obtain ⟨p, rest, he, hoff⟩ := hw
    exact ⟨_, rest, he, .inr (.inl ⟨rfl, v, i, ⟨p, rest, he, hoff⟩, htakes, hd, hext⟩)⟩
  | @refusedAccess e rest a hnext haccess hse =>
    exact ⟨e, rest, hnext, .inr (.inr ⟨rfl, a, hse, haccess⟩)⟩

/-- Settles O24: a CMD write of a command's word is its `exec`, and acceptance alone sets BUSY. -/
theorem stepRunsDecodedCommand : Obligations.StepRunsDecodedCommand := by
  have hwrite (s : State) (v : Word) (i : Instr) (hd : decode v = .ok i) :
      step (s.withEvent (wordWrite 0x14 v)) = exec i s := by
    rw [step_cmdWrite, writeCmd, hd]
  refine ⟨hwrite, fun s i => ?_, fun s v e hd => ?_, fun s t h hs ht => ?_⟩
  · have hword : BitVec.ofNat 32 ((encode i).toNat % 2 ^ 32) = encode i := by
      rw [Nat.mod_eq_of_lt (encode i).isLt, BitVec.ofNat_toNat, BitVec.setWidth_eq]
    rw [State.withFetchWord, hword]
    exact hwrite s _ i (decode_encode i)
  · rw [step_cmdWrite, writeCmd, hd]
  · obtain ⟨es, -, heffect⟩ := step_effect_of_next h
    rcases heffect.busy_cases with e | ⟨-, -, v, i, hw, hd⟩ | ⟨e, -⟩
    · exact nomatch ht.symm.trans (e.trans hs)
    · exact ⟨v, i, hw, hd, step_of_nextWrites_cmd hw hd ▸ h⟩
    · exact nomatch ht.symm.trans e

/-- Settles O29: past the checks 1 to 4 a request is refused exactly for its extents. -/
theorem sideEffectingExtentRefused : Obligations.SideEffectingExtentRefused := by
  intro i s htakes hpos hrange hoverlap
  rw [← not_extentsOrdinary_iff]
  constructor
  · intro h hordinary
    cases (exec_of_acceptable ⟨htakes, hpos, hrange, hoverlap, hordinary⟩).symm.trans h
  · intro hext
    have hnonzero : ¬ (i = .row ∧ pixelCount i s = 0) := fun hz => hpos.ne' hz.2
    rw [exec_of_not_zeroWidth htakes hnonzero]
    rcases admitCommand_cases (latch i s) { s with doneFlag := false } with
      ⟨hout, -⟩ | ⟨-, ⟨hover, -⟩ | ⟨-, ⟨-, e⟩ | ⟨hord, -⟩⟩⟩
    · exact nomatch hrange.symm.trans hout
    · exact nomatch hoverlap.symm.trans hover
    · exact e
    · exact absurd hord hext

/-- Settles O30: a request is dropped, records an error, or sets the engine. -/
theorem commandRequestFrame : Obligations.CommandRequestFrame := by
  intro i s t h
  rcases exec_cases i s with ⟨hn, e⟩ | ⟨ht, ⟨x, -, e⟩ | ⟨-, e⟩ | ⟨-, e⟩⟩ <;> cases e.symm.trans h
  · exact ⟨⟨rfl, rfl, rfl, rfl, rfl⟩, fun _ => rfl, ⟨rfl, rfl, rfl, rfl, rfl, rfl⟩, rfl, fun ht => absurd ht hn,
      fun _ => rfl⟩
  all_goals
    exact ⟨⟨rfl, rfl, rfl, rfl, rfl⟩, fun _ => rfl, ⟨rfl, rfl, rfl, rfl, rfl, rfl⟩, rfl, fun _ => ⟨rfl, rfl⟩,
      fun hn => absurd ht hn⟩

end Sys2Proof.Proofs.EveryStep
end

section
/-! SUPPORT. The host's accesses to data memory as steps: their next states, when they are races, and what they return
and leave (20_memory.md R64, 70_reset_and_hazards.md R206, R207). -/

namespace Sys2Proof.Machine

variable {s : State} {a : Addr} {v : Byte} {r : Running}

theorem NextWith.mono {o : Host.Outcome State Fault Refusal} {P Q : State → Prop} (h : NextWith o P)
    (hPQ : ∀ t, P t → Q t) : NextWith o Q :=
  h.imp fun t => And.imp_right (hPQ t)

/-- The machine after a host read of the byte. -/
def State.afterRead (a : Addr) (s : State) : State :=
  State.drew drawsPerByte { s with
    readouts := .memory a (s.hostReadByte a.toNat) :: s.readouts
    racy := s.racy || s.readRaces a.toNat }

theorem step_memRead (h : sideEffecting s.platform a.toNat = false) :
    step (s.withEvent (.memRead a)) = .next (s.afterRead a) := by
  rw [step_withEvent, perform, hostMemRead, h]
  rfl

theorem step_memWrite (v : Byte) (h : sideEffecting s.platform a.toNat = false) :
    step (s.withEvent (.memWrite a v)) = .next (s.afterWrite a v) := by
  rw [step_withEvent, perform, hostMemWrite, h]
  rfl

theorem State.afterRead_racy : (s.afterRead a).racy = (s.racy || s.readRaces a.toNat) := rfl

/-! The marks of a race. -/

theorem readRaces_of_runningDest (he : s.engine = some r) (hd : r.cmd.inDest a.toNat = true) :
    s.readRaces a.toNat = true := by
  simp [State.readRaces, State.runningDest, he, hd]

theorem writeRaces_of_running (he : s.engine = some r)
    (h : r.cmd.inSource a.toNat = true ∨ r.cmd.inDest a.toNat = true) : s.writeRaces a.toNat = true := by
  rcases h with h | h <;> simp [State.writeRaces, State.runningSource, State.runningDest, he, h]

theorem ownedDest_iff : s.ownedDest a.toNat = true
    ↔ ∃ f ∈ s.unobserved, f.released = false ∧ f.cmd.inDest a.toNat = true := by
  simp [State.ownedDest]

theorem ownedSource_iff : s.ownedSource a.toNat = true
    ↔ ∃ f ∈ s.unobserved, f.released = false ∧ f.cmd.inSource a.toNat = true := by
  simp [State.ownedSource]

theorem ownedDest_eq_false (h : ∀ f ∈ s.unobserved, f.released = true ∨ f.cmd.inDest a.toNat = false) :
    s.ownedDest a.toNat = false := by
  refine Bool.eq_false_iff.2 fun ho => ?_
  obtain ⟨f, hf, hreleased, hd⟩ := ownedDest_iff.1 ho
  rcases h f hf with e | e
  · exact nomatch hreleased.symm.trans e
  · exact nomatch hd.symm.trans e

/-! Reads. -/

/-- What a host read in the running destination can return (R64). -/
theorem hostReadByte_running_cases (he : s.engine = some r) (hd : r.cmd.inDest a.toNat = true) :
    s.hostReadByte a.toNat = readByte r.before a.toNat
      ∨ s.hostReadByte a.toNat = s.engineByte r (s.draws + 1) a.toNat
      ∨ s.hostReadByte a.toNat ∈ r.hostValues a.toNat
      ∨ ∃ f ∈ s.unobserved, f.cmd.inDest a.toNat = true ∧ s.hostReadByte a.toNat = readByte f.before a.toNat := by
  have hview : s.hostView a.toNat
      = (readByte r.before a.toNat, s.engineByte r (s.draws + 1) a.toNat :: r.hostValues a.toNat) := by
    simp only [State.hostView, he, hd, if_true]
  have hdraw := pick_mem s.draws (s.hostView a.toNat).1
    ((s.hostView a.toNat).2 ++ (s.unobservedAt a.toNat).map fun f => readByte f.before a.toNat)
  rw [← State.hostReadByte, hview, List.cons_append, List.mem_cons, List.mem_cons, List.mem_append] at hdraw
  refine hdraw.imp_right (Or.imp_right (Or.imp_right fun hended => ?_))
  obtain ⟨f, hf, hvalue⟩ := List.mem_map.1 hended
  simp only [State.unobservedAt, List.mem_filter, Bool.and_eq_true] at hf
  exact ⟨f, hf.1, hf.2.1, hvalue.symm⟩

/-- A host read that is no race returns what memory holds or an ended command's old byte (R206, R207). -/
theorem memRead_released (hse : sideEffecting s.platform a.toNat = false)
    (hended : ∀ f ∈ s.unobserved, f.released = true ∨ f.cmd.inDest a.toNat = false)
    (hrunning : ∀ r, s.engine = some r → r.cmd.inDest a.toNat = false) :
    NextWith (step (s.withEvent (.memRead a))) fun t => t.racy = s.racy
      ∧ ∃ x, t.readouts = .memory a x :: s.readouts
        ∧ (x = readByte s.mem a.toNat
          ∨ ∃ f ∈ s.unobserved, f.cmd.inDest a.toNat = true ∧ x = readByte f.before a.toNat) := by
  refine ⟨_, step_memRead hse, ?_, _, rfl, hostReadByte_cases hrunning⟩
  rw [State.afterRead_racy, (readRaces_eq_false_iff s _).2 ⟨hrunning, hended⟩, Bool.or_false]

/-- A host read that is no race, of a byte that is no ended command's result, returns what memory holds. -/
theorem memRead_settled (hse : sideEffecting s.platform a.toNat = false) (hrace : s.readRaces a.toNat = false)
    (hended : s.unobservedAt a.toNat = []) :
    NextWith (step (s.withEvent (.memRead a))) fun t =>
      t.racy = s.racy ∧ t.readouts = .memory a (readByte s.mem a.toNat) :: s.readouts := by
  have hrunning := ((readRaces_eq_false_iff s _).1 hrace).1
  refine ⟨_, step_memRead hse, ?_, ?_⟩
  · rw [State.afterRead_racy, hrace, Bool.or_false]
  · rw [← hostReadByte_plain hrunning hended]
    rfl

/-! Writes. -/

theorem Running.logWrite_inside {b : Nat} {w : Byte} (h : r.cmd.inSource b = true ∨ r.cmd.inDest b = true) :
    r.logWrite b w = { r with hostWrites := r.hostWrites ++ [(b, w)] } := by
  rw [Running.logWrite, if_pos (by simpa using h)]

/-- A host write outside the running extents leaves the engine alone. -/
theorem afterWrite_engine_of_outside (h : ∀ r, s.engine = some r →
    r.cmd.inSource a.toNat = false ∧ r.cmd.inDest a.toNat = false) : (s.afterWrite a v).engine = s.engine := by
  cases he : s.engine with
  | none => simp [State.afterWrite, he]
  | some r =>
    obtain ⟨hsource, hdest⟩ := h r he
    simp [State.afterWrite, he, Running.logWrite_outside _ hsource hdest]

/-- The byte of a host write, read back. -/
theorem readByte_afterWrite (hm : memoryWf s.mem = true) (b : Nat) : readByte (s.afterWrite a v).mem b
    = if b = a.toNat then s.hostWriteByte a.toNat v else readByte s.mem b :=
  readByte_writeByte hm a.toNat b _

/-- A host write leaves its value or, in a race with an ended command that wrote the byte, what memory held (R64). -/
theorem readByte_afterWrite_self_cases (hm : memoryWf s.mem = true) :
    readByte (s.afterWrite a v).mem a.toNat = v
      ∨ readByte (s.afterWrite a v).mem a.toNat = readByte s.mem a.toNat := by
  rw [readByte_afterWrite hm, if_pos rfl]
  exact (hostWriteByte_cases v).imp_right And.left

/-- A host write that is no race is stored, and settles the byte: the next read returns it (R206). -/
theorem memWrite_settles (hm : memoryWf s.mem = true) (hse : sideEffecting s.platform a.toNat = false)
    (hrace : s.writeRaces a.toNat = false) :
    NextWith (step (s.withEvent (.memWrite a v))) fun t =>
      t.racy = s.racy ∧ t.engine = s.engine ∧ readByte t.mem a.toNat = v
      ∧ NextWith (step (t.withEvent (.memRead a))) fun w =>
        w.racy = s.racy ∧ w.readouts = .memory a v :: t.readouts := by
  obtain ⟨hread, hsource, -⟩ := (writeRaces_eq_false_iff s _).1 hrace
  obtain ⟨hrunning, hended⟩ := (readRaces_eq_false_iff s _).1 hread
  have hracy : (s.afterWrite a v).racy = s.racy := by rw [State.afterWrite_racy, hrace, Bool.or_false]
  have hengine : (s.afterWrite a v).engine = s.engine :=
    afterWrite_engine_of_outside fun r he => ⟨hsource r he, hrunning r he⟩
  have hvalue : readByte (s.afterWrite a v).mem a.toNat = v := by
    rw [readByte_afterWrite hm, if_pos rfl, hostWriteByte_of_not_owned v (ownedDest_eq_false hended)]
  have hrace' : (s.afterWrite a v).readRaces a.toNat = false := by
    refine (readRaces_eq_false_iff _ _).2 ⟨fun r he => hrunning r (hengine ▸ he), fun f hf => ?_⟩
    obtain ⟨g, hg, rfl⟩ := List.mem_map.1 hf
    simpa using hended g hg
  have hsettled : (s.afterWrite a v).unobservedAt a.toNat = [] := by
    refine List.filter_eq_nil_iff.2 fun f hf => ?_
    obtain ⟨g, hg, rfl⟩ := List.mem_map.1 hf
    rw [Finished.noteWrite_cmd, Finished.noteWrite_settles (hended g hg)]
    decide
  obtain ⟨w, hstep, hracy', hreadouts⟩ := memRead_settled (s := s.afterWrite a v) hse hrace' hsettled
  exact ⟨_, step_memWrite v hse, hracy, hengine, hvalue, w, hstep, hracy'.trans hracy, hvalue ▸ hreadouts⟩

/-! A read of STATUS with BUSY = 0 (R206, R207). -/

/-- With DONE = 1 the read observes every ended command, with DONE = 0 it only releases them. -/
theorem readAt_status_of_idle (hb : s.busy = false) : readAt 0x18 s =
    { s with
      readouts := .register 0x18 (readOffset s 0x18) :: s.readouts
      unobserved := if s.doneFlag then [] else s.unobserved.map Finished.release } := by
  have hobserved : (readAt 0x18 s).unobserved = if s.doneFlag then [] else s.unobserved.map Finished.release := by
    show (observeStatus s).unobserved = _
    cases hd : s.doneFlag <;> simp [observeStatus, hb, hd]
  obtain ⟨l, hread⟩ := readAt_eq s 0x18
  rw [hread] at hobserved ⊢
  rw [← hobserved]

/-- With no command running, accesses to released extents are no races (R206). -/
theorem writeRaces_of_all_released (hidle : s.engine = none) (h : ∀ f ∈ s.unobserved, f.released = true) :
    s.writeRaces a.toNat = false := by
  have hnone (r : Running) : s.engine ≠ some r := fun he => nomatch hidle.symm.trans he
  exact (writeRaces_eq_false_iff s _).2 ⟨(readRaces_eq_false_iff s _).2
    ⟨fun r he => absurd he (hnone r), fun f hf => .inl (h f hf)⟩, fun r he => absurd he (hnone r),
    fun f hf => .inl (h f hf)⟩

/-! The bytes of a command that the host has raced (R64). -/

/-- An engine read of a byte the host wrote once while BUSY is the old or the new value. -/
theorem sourceByte_of_one_write {q : Running} {b : Nat} {w : Byte} (k : Nat) (h : q.hostValues b = [w]) :
    s.sourceByte q k b = readByte q.before b ∨ s.sourceByte q k b = w := by
  have hdraw := pick_mem k (readByte q.before b) [w]
  simpa only [State.sourceByte, h, List.mem_cons, List.not_mem_nil, or_false] using hdraw

/-- A destination byte the host wrote once holds, at completion, the engine's value or the host's. -/
theorem readByte_completedMemory_of_one_write {b : Nat} {w : Byte} (hm : memoryWf s.mem = true)
    (hq : r.hostWrites = [(b, w)]) (hd : r.cmd.inDest b = true) :
    readByte (s.completedMemory r) b = w ∨ ∃ k, readByte (s.completedMemory r) b = s.engineByte r k b := by
  have hvalues : r.hostValues b = [w] := by simp [Running.hostValues, hq]
  have hmem : s.completedMemory r = writeByte s.mem b (pick s.draws (s.engineByte r (s.draws + 1) b) [w]) := by
    simp [State.completedMemory, hq, hd, hvalues]
  have hdraw := pick_mem s.draws (s.engineByte r (s.draws + 1) b) [w]
  rw [hmem, readByte_writeByte_self hm]
  simp only [List.mem_cons, List.not_mem_nil, or_false] at hdraw
  exact hdraw.symm.imp_right fun e => ⟨_, e⟩

end Sys2Proof.Machine
end

section
/-! PROOF. The statements on the host's memory accesses, races and the observation of results (20_memory.md R64, R67,
70_reset_and_hazards.md R206, R207). -/

namespace Sys2Proof.Proofs.HostMemory

open Sys2Proof Sys2Proof.Machine

/-- Settles O44: outside the extents no race is marked, nothing is logged, and one value can be returned or left. -/
theorem hostMemoryAccessesArePlain : Obligations.HostMemoryAccessesArePlain := by
  intro s a v hse hm
  constructor
  · intro hplain
    obtain ⟨⟨hrunning, hended⟩, hsource, -⟩ := id hplain
    obtain ⟨-, -, howned⟩ := hplain.1.laws
    have hengine : (s.afterWrite a v).engine = s.engine :=
      afterWrite_engine_of_outside fun r he => ⟨hsource r he, hrunning r he⟩
    have hunobserved : (s.afterWrite a v).unobserved = s.unobserved :=
      (List.map_congr_left fun f hf => Finished.noteWrite_outside (hended f hf)).trans (List.map_id _)
    have hracy : (s.afterWrite a v).racy = s.racy := by
      rw [State.afterWrite_racy, hplain.writeRaces, Bool.or_false]
    refine ⟨_, step_memWrite v hse, fun b => ?_, ⟨rfl, rfl, rfl, rfl, rfl⟩, ⟨rfl, rfl, rfl⟩, hengine, rfl, rfl,
      hunobserved, hracy, rfl, rfl⟩
    rw [readByte_afterWrite hm, hostWriteByte_of_not_owned v howned]
  · intro hplain
    obtain ⟨hrace, hended, -⟩ := hplain.laws
    have hracy : (s.afterRead a).racy = s.racy := by rw [State.afterRead_racy, hrace, Bool.or_false]
    refine ⟨_, step_memRead hse, ?_, rfl, ⟨rfl, rfl, rfl, rfl, rfl⟩, ⟨rfl, rfl, rfl⟩, rfl, rfl, rfl, rfl, hracy, rfl,
      rfl⟩
    rw [← hostReadByte_plain hplain.1 hended]
    rfl

/-- Settles O45: each value is a draw, and the engine's draw is the final value where the source is unraced. -/
theorem racesHaveTheStatedValueSets : Obligations.RacesHaveTheStatedValueSets := by
  intro s r a v hinv hdata he hse
  have hok := hinv.running r he
  have hlogged (hin : r.cmd.inSource a.toNat = true ∨ r.cmd.inDest a.toNat = true) :
      (s.afterWrite a v).engine
        = some { r with hostWrites := r.hostWrites ++ [(a.toNat, s.hostWriteByte a.toNat v)] } := by
    simp [State.afterWrite, he, Running.logWrite_inside hin]
  refine ⟨fun hq hd => ?_, fun hq hin => ?_, fun hq hd => ?_, fun hq hd hp k => ?_⟩
  · refine ⟨_, step_memRead hse, ?_, _, rfl, ?_⟩
    · rw [State.afterRead_racy, readRaces_of_runningDest he hd, Bool.or_true]
    · rcases hostReadByte_running_cases he hd with e | e | e | e
      · exact .inl e
      · exact .inr (.inl (e.trans (State.engineByte_of_quiet (hdata r he) hq _ hd)))
      · rw [Running.hostValues_of_nil hq] at e
        cases e
      · exact .inr (.inr e)
  · refine ⟨_, step_memWrite v hse, ?_, _, hlogged (.inl hin), rfl, rfl, fun k => ?_⟩
    · rw [State.afterWrite_racy, writeRaces_of_running he (.inl hin), Bool.or_true]
    · have hold := (hdata r he).source _ hin (Running.hostValues_of_nil hq _)
      have hvalues : ({ r with hostWrites := r.hostWrites ++ [(a.toNat, s.hostWriteByte a.toNat v)] } :
          Running).hostValues a.toNat = [s.hostWriteByte a.toNat v] := by
        simp [Running.hostValues, hq]
      rcases sourceByte_of_one_write (s := s.afterWrite a v) k hvalues with e | e
      · exact .inl (e.trans hold.symm)
      · exact (hostWriteByte_cases v).symm.imp (fun h => e.trans h.1) e.trans
  · refine ⟨_, step_memWrite v hse, ?_, _, _, hlogged (.inr hd), rfl, rfl, by rw [hq]; rfl, ?_⟩
    · rw [State.afterWrite_racy, writeRaces_of_running he (.inr hd), Bool.or_true]
    · exact (hostWriteByte_cases v).imp_right (And.imp_right ownedDest_iff.1)
  · refine ⟨_, engineStep_of_pending_nil k he hp, ?_⟩
    refine (readByte_completedMemory_of_one_write hinv.memWf hq hd).imp_right fun ⟨k, e⟩ => e.trans ?_
    refine (hdata r he).engineByte_of_done k hd
      (hok.isDone_of_pending_nil hp (Latched.destAddr_of_inDest hd).1) fun b hb => ?_
    have hne : a.toNat ≠ b := by
      rintro rfl
      exact nomatch hd.symm.trans (Latched.inDest_of_inSource hok.disjoint hb)
    simp [Running.hostValues, hq, hne]

/-- Settles O46: the read of STATUS releases or drops the ended commands, and what is unreleased races. -/
theorem statusReadObservesCompletion : Obligations.StatusReadObservesCompletion := by
  intro s a v hm hse
  have hstatus := step_wordRead s (off := 0x18) (by decide) (by decide)
  refine ⟨fun hb hdone => ?_, fun hb hdone => ?_, fun howned => ⟨?_, ?_⟩, fun howned hnone => ?_,
    fun hended hrunning => ⟨memRead_released hse hended hrunning, fun hsource hrunning' => ?_⟩⟩
  · rw [readAt_status_of_idle hb, if_pos hdone] at hstatus
    refine ⟨_, hstatus, rfl, rfl, rfl, memRead_settled hse ?_ rfl⟩
    refine ((writeRaces_eq_false_iff _ _).1 (writeRaces_of_all_released ?_ ?_)).1
    · exact State.engine_eq_none_of_idle hb
    · simp
  · rw [readAt_status_of_idle hb, if_neg (Bool.eq_false_iff.1 hdone)] at hstatus
    have hall : ∀ f ∈ s.unobserved.map Finished.release, f.released = true := by
      simp [Finished.release]
    have hnone (r : Running) : s.engine ≠ some r := by simp [State.engine_eq_none_of_idle hb]
    refine ⟨_, hstatus, rfl, rfl, NextWith.mono (memRead_released hse ?_ ?_) fun t ht => ?_,
      NextWith.mono (memWrite_settles ?_ hse ?_) fun t ht => ?_⟩
    · exact fun f hf => .inl (hall f hf)
    · exact fun r he => absurd he (hnone r)
    · obtain ⟨hracy, x, hreadouts, hvalue⟩ := ht
      refine ⟨hracy, x, hreadouts, hvalue.imp_right ?_⟩
      rintro ⟨f, hf, hd, e⟩
      obtain ⟨g, hg, rfl⟩ := List.mem_map.1 hf
      exact ⟨g, hg, hd, e⟩
    · exact hm
    · exact writeRaces_of_all_released (State.engine_eq_none_of_idle hb) hall
    · obtain ⟨hracy, -, hvalue, hread⟩ := ht
      exact ⟨hracy, hvalue, hread⟩
  · refine ⟨_, step_memRead hse, ?_, fun hrunning => ⟨_, rfl, hostReadByte_cases hrunning⟩⟩
    rw [State.afterRead_racy, State.readRaces, ownedDest_iff.2 howned, Bool.or_true, Bool.or_true]
  · refine ⟨_, step_memWrite v hse, ?_, readByte_afterWrite_self_cases hm⟩
    rw [State.afterWrite_racy, State.writeRaces, ownedDest_iff.2 howned, Bool.or_true, Bool.true_or, Bool.or_true]
  · refine ⟨_, step_memWrite v hse, ?_, fun b => ?_⟩
    · rw [State.afterWrite_racy, State.writeRaces, ownedSource_iff.2 howned, Bool.or_true, Bool.or_true]
    · rw [readByte_afterWrite hm, hostWriteByte_of_not_owned v (ownedDest_eq_false fun f hf => .inr (hnone f hf))]
  · exact memWrite_settles hm hse
      ((writeRaces_eq_false_iff _ _).2 ⟨(readRaces_eq_false_iff _ _).2 ⟨hrunning, hended⟩, hrunning', hsource⟩)

end Sys2Proof.Proofs.HostMemory
end

section
/-! SUPPORT. Register accesses by host address (10_state.md R20), the engine's steps and the events to come, and the
rows of the host loop (70_reset_and_hazards.md R211). -/

namespace Sys2Proof.Machine

variable {s t : State} {p : Platform} {w : AccessWidth}

/-! The window at REG_BASE. -/

theorem windowOffset_absolute {o : Nat} (h : o < 0x100) : windowOffset p (.absolute (p.regBase + o)) = some o := by
  rw [windowOffset, if_pos (by omega), Nat.add_sub_cancel_left]

/-- An access at REG_BASE + o is the one at offset o. -/
theorem resolveAccess_absolute {o : Nat} (h : o < 0x100) :
    resolveAccess p (.absolute (p.regBase + o)) w = resolveAccess p (.offset o) w := by
  rw [resolveAccess_offset p w h, resolveAccess, windowOffset_absolute h]

theorem windowOffset_outside {a : Nat} (h : a < p.regBase ∨ p.regBase + 0x100 ≤ a) :
    windowOffset p (.absolute a) = none :=
  if_neg (by omega)

/-- An access that takes no byte of the window is not the block's (log 12). -/
theorem resolveAccess_elsewhere {a : Nat} (h : a + w.bytes ≤ p.regBase ∨ p.regBase + 0x100 ≤ a) :
    resolveAccess p (.absolute a) w = .elsewhere := by
  have hbytes : 0 < w.bytes := by cases w <;> decide
  have hreach : reachesWindow p (.absolute a) w = false := by
    simp only [reachesWindow, Bool.and_eq_false_iff, decide_eq_false_iff_not]
    omega
  rw [resolveAccess, windowOffset_outside (by omega), hreach]
  rfl

/-- An access from below into the window is misformed (log 12). -/
theorem resolveAccess_from_below {a : Nat} (h : a < p.regBase) (hreaches : p.regBase < a + w.bytes) :
    resolveAccess p (.absolute a) w = .misformed := by
  have hreach : reachesWindow p (.absolute a) w = true := by
    simp only [reachesWindow, Bool.and_eq_true, decide_eq_true_eq]
    omega
  rw [resolveAccess, windowOffset_outside (.inl h), hreach]
  rfl

/-- A step of the engine leaves the events to come. -/
theorem engineStep_events {k : Nat} (h : engineStep k s = .next t) : t.events = s.events := by
  rcases engineStep_cases k s with ⟨-, e⟩ | ⟨r, -, ⟨-, e⟩ | ⟨u, -, -, -, ⟨-, e⟩ | ⟨-, -, e⟩ | ⟨-, -, e⟩⟩⟩ <;>
    cases e.symm.trans h <;> rfl

/-! The bits of STATUS (R28). -/

/-- The four flags are bits 3 to 0 of STATUS. -/
theorem statusWord_flags (s : State) : (statusWord s).getLsbD 0 = s.busy ∧ (statusWord s).getLsbD 1 = s.doneFlag
    ∧ (statusWord s).getLsbD 2 = s.error.isSome ∧ (statusWord s).getLsbD 3 = s.drop := by
  simp only [statusWord, BitVec.getLsbD_append]
  simp

/-- After a read of STATUS the `require` of the host loop looks at the flags (R211). -/
theorem lastStatusGood_readAt_status (s : State) :
    lastStatusGood (readAt 0x18 s) = (s.doneFlag && !s.error.isSome) := by
  obtain ⟨-, hdone, herr, -⟩ := statusWord_flags s
  rw [← hdone, ← herr]
  rfl

theorem stopHost_not_goodEnd (s : State) : ¬ GoodEnd (stopHost s) :=
  fun ⟨_, _, _, _, _, _, hrunning⟩ => nomatch hrunning

/-! The rows of the host loop. -/

/-- Two entries for each index stand at the even and the odd places. -/
theorem getElem?_flatMap_pair {α : Type} (f g : Nat → α) {n y : Nat} (hy : y < n) :
    ((List.range n).flatMap fun y => [f y, g y])[2 * y]? = some (f y)
      ∧ ((List.range n).flatMap fun y => [f y, g y])[2 * y + 1]? = some (g y) := by
  have hlength (m : Nat) : ((List.range m).flatMap fun y => [f y, g y]).length = 2 * m := by
    simp [List.length_flatMap, Nat.mul_comm]
  induction n with
  | zero => omega
  | succ n ih =>
    rw [List.range_succ, List.flatMap_append]
    by_cases h : y < n
    · rw [List.getElem?_append_left (by rw [hlength]; omega), List.getElem?_append_left (by rw [hlength]; omega)]
      exact ih h
    · obtain rfl : y = n := by omega
      rw [List.getElem?_append_right (by rw [hlength]), List.getElem?_append_right (by rw [hlength]; omega), hlength,
        Nat.sub_self, Nat.add_sub_cancel_left]
      exact ⟨rfl, rfl⟩

/-- The conditions under which the host loop is refused (R211, U5, log 23). -/
theorem convertImage_eq_none_iff (src dst w h stride : Nat) : convertImage src dst w h stride = none ↔
    (w = 0 ∨ h = 0 ∨ stride < 4 * w ∨ (src < dst + stride * h ∧ dst < src + stride * h) ∨ 2 ^ 32 ≤ w
      ∨ 2 ^ 32 ≤ src + (h - 1) * stride ∨ 2 ^ 32 ≤ dst + (h - 1) * stride) := by
  have hbuffers : buffersDisjoint src dst (stride * h) = true
      ↔ ¬ (src < dst + stride * h ∧ dst < src + stride * h) := by
    simp only [buffersDisjoint, Bool.or_eq_true, decide_eq_true_eq]
    omega
  rw [convertImage, ite_eq_right_iff, hbuffers]
  simp only [reduceCtorEq, imp_false]
  omega

end Sys2Proof.Machine
end

section
/-! PROOF. The statements on STATUS, the operand registers, the window and `wait` (10_state.md R20 to R28,
30_encoding.md R90). -/

namespace Sys2Proof.Proofs.Window

open Sys2Proof Sys2Proof.Machine

/-- Settles O4: STATUS is its fields in order, and the codes are the table's. -/
theorem statusWordBits : Obligations.StatusWordBits := by
  refine ⟨fun s => ?_, rfl, rfl, rfl, rfl, rfl, rfl⟩
  obtain ⟨hbusy, hdone, herr, hdrop⟩ := statusWord_flags s
  refine ⟨hbusy, hdone, herr, hdrop, ?_, statusWord_errcode s, ?_⟩
  · exact extractLsb'_eq_zero_of_getLsbD fun i hlo hhi => statusWord_getLsbD_reserved s (by omega)
  · exact extractLsb'_eq_zero_of_getLsbD fun i hlo hhi => statusWord_getLsbD_reserved s (by omega)

/-- Settles O5, by the effect of a STATUS write field by field. -/
theorem statusWriteOneToClear : Obligations.StatusWriteOneToClear := by
  intro s v
  rw [step_wordWrite s v (by decide) (by decide), writeOffset_status, writeStatus_eq]

/-- Settles O7: with BUSY = 0 the guard of the three registers takes the write. -/
theorem operandWritesStore : Obligations.OperandWritesStore := by
  intro s v hb
  refine ⟨?_, ?_, ?_, readOffset_src _, readOffset_dst _, readOffset_width _⟩
  · exact step_guardedWrite_of_idle s v hb (by decide) (by decide) (writeOffset_src s v)
  · exact step_guardedWrite_of_idle s v hb (by decide) (by decide) (writeOffset_dst s v)
  · exact step_guardedWrite_of_idle s v hb (by decide) (by decide) (writeOffset_width s v)

/-- Settles O13: an access is what its address resolves to. -/
theorem windowStandsAtRegBase : Obligations.WindowStandsAtRegBase := by
  intro s w v
  refine ⟨fun o ho => ?_, fun a ha => ?_, fun a ha => ?_⟩
  · simp only [step_withEvent, perform, hostWrite, hostRead, resolveAccess_absolute ho, and_self]
  · simp only [step_withEvent, perform, hostWrite, hostRead, resolveAccess_elsewhere ha, and_self]
  · simp only [step_withEvent, perform, hostWrite, hostRead, resolveAccess_from_below ha.1 ha.2, and_self]

/-- Settles O53: IDLE the wait is its last read of STATUS, BUSY it is a step of the engine, which keeps the events. -/
theorem waitPollsUntilIdle : Obligations.WaitPollsUntilIdle := by
  refine ⟨fun s hb => ?_, fun s t hb h => ?_, fun s he hb => ?_⟩
  · have hwait : hostWait s = .next (readAt 0x18 s) := if_neg (by simp [hb])
    rw [step_wordRead s (by decide) (by decide), step_withEvent, perform, hwait]
  · have hengine : step (s.withEvent .wait) = engineStep 0 (s.withEvent .wait) := step_wait_of_busy rfl hb
    rw [hengine] at h
    exact ⟨engineStep_events h, h⟩
  · rw [step_of_no_events he, engineStep, State.engine_eq_none_of_idle hb]

end Sys2Proof.Proofs.Window
end

section
/-! PROOF. The statements on the command words and the host's programs (30_encoding.md R81 to R90,
70_reset_and_hazards.md R211). -/

namespace Sys2Proof.Proofs.Programs

open Sys2Proof Sys2Proof.Machine

/-- Settles O21: a word that decodes has its command's fields, and a word is its fields. -/
theorem decodeIffEncode : Obligations.DecodeIffEncode :=
  fun _ i => ⟨eq_encode_of_decode, fun h => h ▸ decode_encode i⟩

/-- Settles O22, by decoding each word. -/
theorem sampleWordsDecode : Obligations.SampleWordsDecode := by
  unfold Obligations.SampleWordsDecode
  decide

/-- Settles O23, code by code. -/
theorem blockSizeTable : Obligations.BlockSizeTable := ⟨rfl, rfl, rfl, rfl, rfl⟩

/-- Settles O54: each line is the list of its accesses, a command's word by the table of R81. -/
theorem hostAssemblerEncodings : Obligations.HostAssemblerEncodings :=
  ⟨fun _ => ⟨rfl, rfl, rfl, rfl, rfl, rfl, rfl⟩, ⟨rfl, rfl, rfl, rfl, rfl, rfl, rfl⟩, rfl, rfl, rfl, fun _ => rfl,
    fun _ => rfl, fun _ => rfl, fun _ => rfl, rfl, rfl, fun _ _ => rfl, fun _ _ => rfl, fun _ _ _ => rfl⟩

/-- Settles O55: a program has two lines for each row, and `require` looks at the flags that STATUS showed. -/
theorem hostLoopChecksEachRow : Obligations.HostLoopChecksEachRow := by
  refine ⟨convertImage_eq_none_iff, fun src dst w h stride p hp => ?_, fun s => ?_⟩
  · obtain ⟨-, rfl⟩ := (Option.ite_none_right_eq_some.1 hp).imp_right Option.some.inj
    exact ⟨by simp [List.length_flatMap, Nat.mul_comm], fun y hy => getElem?_flatMap_pair _ _ hy⟩
  · refine ⟨_, step_wordRead s (by decide) (by decide), fun hdone herr => ?_, fun hbad => ?_⟩
    · have hgood : lastStatusGood (readAt 0x18 s) = true := by
        rw [lastStatusGood_readAt_status, hdone, herr]
        rfl
      rw [step_withEvent, perform, hostRequire, if_pos hgood]
    · have hgood : lastStatusGood (readAt 0x18 s) ≠ true := by
        rw [lastStatusGood_readAt_status]
        rcases hbad with h | h <;> simp [h]
      refine ⟨stopHost (readAt 0x18 s), ?_, rfl, stopHost_not_goodEnd _, fun e => ?_⟩
      · rw [step_withEvent, perform, hostRequire, if_neg hgood]
      · simp [List.mem_filter]

end Sys2Proof.Proofs.Programs
end
